-- ==== Sys2Proof/Word.lean ====
section
/-! DEFINITION. The widths of the machine's values (spec/00_scope.md R4, R6): every value is an unsigned bit pattern or a
number; the hardware has no signed operation. -/

namespace Sys2Proof

/-- An 8-bit value: a register V, a timer, a memory byte, an immediate `NN` (R11, R17, R18, R19). -/
abbrev Byte := BitVec 8

/-- A 16-bit value: I, PC, a stack entry (R13, R14, R16). -/
abbrev Word := BitVec 16

/-- A 16-bit instruction word `w[15:0]` (R50). -/
abbrev Opcode := BitVec 16

/-- A 12-bit address operand `NNN` (R51, R53). -/
abbrev Addr := BitVec 12

/-- The number of a general register V0 to VF (R11). -/
abbrev VReg := Fin 16

/-- VF, the flag register (R12). -/
abbrev vf : VReg := 15

end Sys2Proof
end

