-- ==== Sys2Proof/Syntax.lean ====
section
/-! DEFINITION. The instructions: one constructor for each row of spec/opcode_table.json (spec/30_encoding.md R56), in the
table's order, with the operands of its format (R52). Bits that a row ignores (R58) are no operand. -/

namespace Sys2Proof

/-- The 34 instructions of R56 and the fallback row of R57 and R75. `x`, `y` number the registers `V[X]`, `V[Y]`; `nn`, `nnn`,
`n` are the immediates of R51. -/
inductive Instr where
  /-- `CLS`, 0-E0 (R80). -/
  | cls
  /-- `RET`, 0-EE (R81). -/
  | ret
  /-- `JP NNN`, 1NNN (R82). -/
  | jp (nnn : Addr)
  /-- `CALL NNN`, 2NNN (R83). -/
  | call (nnn : Addr)
  /-- `SE Vx, NN`, 3XNN (R84). -/
  | seImm (x : VReg) (nn : Byte)
  /-- `SNE Vx, NN`, 4XNN (R85). -/
  | sneImm (x : VReg) (nn : Byte)
  /-- `SE Vx, Vy`, 5XY- (R86). -/
  | seReg (x y : VReg)
  /-- `LD Vx, NN`, 6XNN (R130). -/
  | ldImm (x : VReg) (nn : Byte)
  /-- `ADD Vx, NN`, 7XNN (R131). -/
  | addImm (x : VReg) (nn : Byte)
  /-- `LD Vx, Vy`, 8XY0 (R91). -/
  | ldReg (x y : VReg)
  /-- `OR Vx, Vy`, 8XY1 (R92). -/
  | orReg (x y : VReg)
  /-- `AND Vx, Vy`, 8XY2 (R93). -/
  | andReg (x y : VReg)
  /-- `XOR Vx, Vy`, 8XY3 (R94). -/
  | xorReg (x y : VReg)
  /-- `ADD Vx, Vy`, 8XY4 (R95). -/
  | addReg (x y : VReg)
  /-- `SUB Vx, Vy`, 8XY5 (R96). -/
  | subReg (x y : VReg)
  /-- `SHR Vx, Vy`, 8XY6 (R97). -/
  | shr (x y : VReg)
  /-- `SUBN Vx, Vy`, 8XY7 (R98). -/
  | subn (x y : VReg)
  /-- `SHL Vx, Vy`, 8XYE (R99). -/
  | shl (x y : VReg)
  /-- `SNE Vx, Vy`, 9XY- (R87). -/
  | sneReg (x y : VReg)
  /-- `LD I, NNN`, ANNN (R132). -/
  | ldI (nnn : Addr)
  /-- `JP V0, NNN`, BNNN (R88). -/
  | jpV0 (nnn : Addr)
  /-- `RND Vx, NN`, CXNN (R100). -/
  | rnd (x : VReg) (nn : Byte)
  /-- `DRW Vx, Vy, N`, DXYN (R110); `n` is the sprite's height in rows. -/
  | drw (x y : VReg) (n : Fin 16)
  /-- `SKP Vx`, EX9E (R111). -/
  | skp (x : VReg)
  /-- `SKNP Vx`, EXA1 (R112). -/
  | sknp (x : VReg)
  /-- `LD Vx, DT`, FX07 (R113). -/
  | ldVxDt (x : VReg)
  /-- `LD Vx, K`, FX0A (R114). -/
  | ldVxK (x : VReg)
  /-- `LD DT, Vx`, FX15 (R115). -/
  | ldDtVx (x : VReg)
  /-- `LD ST, Vx`, FX18 (R116). -/
  | ldStVx (x : VReg)
  /-- `ADD I, Vx`, FX1E (R117). -/
  | addI (x : VReg)
  /-- `LD F, Vx`, FX29 (R118). -/
  | ldF (x : VReg)
  /-- `LD B, Vx`, FX33 (R119). -/
  | ldB (x : VReg)
  /-- `LD [I], Vx`, FX55, the register dump (R120). -/
  | dump (x : VReg)
  /-- `LD Vx, [I]`, FX65, the register load (R121). -/
  | load (x : VReg)
  /-- `NOP.unknown` (R75): a word that matches no row of R56, kept as it was fetched. DESIGN CHOICE, log 29. -/
  | nopUnknown (w : Opcode)
  deriving DecidableEq, Repr

end Sys2Proof
end

