-- ==== Sys2Proof/WellFormed.lean ====
section
/-! DEFINITION. Which terms of `Instr` are instructions. The types of the operands hold every bound of spec/30_encoding.md R51
(a register 0..15, `NN` 8 bits, `NNN` 12 bits, `N` 0..15), so one check is left: the word of `nopUnknown` is one of R57's. -/

namespace Sys2Proof

/-- The words that match no row of R56, by family and key as the table of R57 lists them. -/
def unknownWord (w : Opcode) : Bool :=
  let low := (w.extractLsb' 0 8).toNat
  match (w.extractLsb' 12 4).toNat with
  | 0x0 => !([0xE0, 0xEE].contains low)
  | 0x8 => [0x8, 0x9, 0xA, 0xB, 0xC, 0xD, 0xF].contains (w.extractLsb' 0 4).toNat
  | 0xE => !([0x9E, 0xA1].contains low)
  | 0xF => !([0x07, 0x0A, 0x15, 0x18, 0x1E, 0x29, 0x33, 0x55, 0x65].contains low)
  | _ => false

/-- The syntactic check on an instruction: an unknown word must be unknown (R57), every other instruction is well formed. -/
def Instr.wellFormed : Instr → Bool
  | .nopUnknown w => unknownWord w
  | .cls | .ret => true
  | .jp _ | .call _ | .ldI _ | .jpV0 _ => true
  | .seImm _ _ | .sneImm _ _ | .ldImm _ _ | .addImm _ _ | .rnd _ _ => true
  | .seReg _ _ | .sneReg _ _ => true
  | .ldReg _ _ | .orReg _ _ | .andReg _ _ | .xorReg _ _ => true
  | .addReg _ _ | .subReg _ _ | .shr _ _ | .subn _ _ | .shl _ _ => true
  | .drw _ _ _ => true
  | .skp _ | .sknp _ => true
  | .ldVxDt _ | .ldVxK _ | .ldDtVx _ | .ldStVx _ => true
  | .addI _ | .ldF _ | .ldB _ | .dump _ | .load _ => true

end Sys2Proof
end

