-- ==== Sys2Proof/Decode.lean ====
section
/-! DEFINITION. Decoding and encoding of the 16-bit instruction word (spec/30_encoding.md R50 to R59). Every word decodes: no
encoding is illegal (R57); only a byte list too short to hold a word is rejected. -/

namespace Sys2Proof

/-! ## Fields (R51) and byte order (R36) -/

/-- `F = w[15:12]`, the family, 0 to 15. -/
def familyOf (w : Opcode) : Nat := (w.extractLsb' 12 4).toNat

/-- `X = w[11:8]`. -/
def fieldX (w : Opcode) : VReg := (w.extractLsb' 8 4).toFin

/-- `Y = w[7:4]`. -/
def fieldY (w : Opcode) : VReg := (w.extractLsb' 4 4).toFin

/-- `N = w[3:0]`. -/
def fieldN (w : Opcode) : Fin 16 := (w.extractLsb' 0 4).toFin

/-- `NN = w[7:0]`. -/
def fieldNN (w : Opcode) : Byte := w.extractLsb' 0 8

/-- `NNN = w[11:0]`. -/
def fieldNNN (w : Opcode) : Addr := w.extractLsb' 0 12

/-- The opcode of two bytes, the byte at the lower address the more significant one (20_memory.md R36: big-endian). -/
def opcodeOf (hi lo : Byte) : Opcode := hi ++ lo

/-- The byte stored at the lower address (R36). -/
def highByte (w : Opcode) : Byte := w.extractLsb' 8 8

/-- The byte stored at the higher address (R36). -/
def lowByte (w : Opcode) : Byte := w.extractLsb' 0 8

/-! ## The decoder (R54, R55, R56) -/

/-- Family 0, keyed on the low byte; `w[11:8]` is ignored (R55, R58). -/
def decode0 (w : Opcode) : Instr :=
  match (fieldNN w).toNat with
  | 0xE0 => .cls
  | 0xEE => .ret
  | _ => .nopUnknown w

/-- Family 8, keyed on the low nibble (R55). -/
def decode8 (w : Opcode) : Instr :=
  match (fieldN w).val with
  | 0x0 => .ldReg (fieldX w) (fieldY w)
  | 0x1 => .orReg (fieldX w) (fieldY w)
  | 0x2 => .andReg (fieldX w) (fieldY w)
  | 0x3 => .xorReg (fieldX w) (fieldY w)
  | 0x4 => .addReg (fieldX w) (fieldY w)
  | 0x5 => .subReg (fieldX w) (fieldY w)
  | 0x6 => .shr (fieldX w) (fieldY w)
  | 0x7 => .subn (fieldX w) (fieldY w)
  | 0xE => .shl (fieldX w) (fieldY w)
  | _ => .nopUnknown w

/-- Family E, keyed on the low byte (R55). -/
def decodeE (w : Opcode) : Instr :=
  match (fieldNN w).toNat with
  | 0x9E => .skp (fieldX w)
  | 0xA1 => .sknp (fieldX w)
  | _ => .nopUnknown w

/-- Family F, keyed on the low byte (R55). -/
def decodeF (w : Opcode) : Instr :=
  match (fieldNN w).toNat with
  | 0x07 => .ldVxDt (fieldX w)
  | 0x0A => .ldVxK (fieldX w)
  | 0x15 => .ldDtVx (fieldX w)
  | 0x18 => .ldStVx (fieldX w)
  | 0x1E => .addI (fieldX w)
  | 0x29 => .ldF (fieldX w)
  | 0x33 => .ldB (fieldX w)
  | 0x55 => .dump (fieldX w)
  | 0x65 => .load (fieldX w)
  | _ => .nopUnknown w

/-- The instruction a word selects: the family, then the secondary key of families 0, 8, E and F (R54, R73). It depends on the
word alone (R59). -/
def decode (w : Opcode) : Instr :=
  match familyOf w with
  | 0x0 => decode0 w
  | 0x1 => .jp (fieldNNN w)
  | 0x2 => .call (fieldNNN w)
  | 0x3 => .seImm (fieldX w) (fieldNN w)
  | 0x4 => .sneImm (fieldX w) (fieldNN w)
  | 0x5 => .seReg (fieldX w) (fieldY w)
  | 0x6 => .ldImm (fieldX w) (fieldNN w)
  | 0x7 => .addImm (fieldX w) (fieldNN w)
  | 0x8 => decode8 w
  | 0x9 => .sneReg (fieldX w) (fieldY w)
  | 0xA => .ldI (fieldNNN w)
  | 0xB => .jpV0 (fieldNNN w)
  | 0xC => .rnd (fieldX w) (fieldNN w)
  | 0xD => .drw (fieldX w) (fieldY w) (fieldN w)
  | 0xE => decodeE w
  | _ => decodeF w

/-- Why a byte list is no instruction. -/
inductive DecodeError where
  /-- Fewer than the two bytes every instruction has (R50). -/
  | truncated
  deriving DecidableEq, Repr

/-- The first instruction of a byte list and the bytes after it: two bytes, high byte first (R36, R50). -/
def decodeBytes : List Byte → Except DecodeError (Instr × List Byte)
  | hi :: lo :: rest => .ok (decode (opcodeOf hi lo), rest)
  | [_] | [] => .error .truncated

/-! ## The encoder (R52; canonical words, R60: an ignored nibble is encoded 0) -/

/-- A register number or height as a nibble. -/
def nibble (r : Fin 16) : BitVec 4 := BitVec.ofFin r

/-- Format ADDR, `fNNN`. -/
def encAddr (f : BitVec 4) (nnn : Addr) : Opcode := f ++ nnn

/-- Format XIMM, `fXNN`; with a fixed low byte format XK, `fXkk`. -/
def encXImm (f : BitVec 4) (x : VReg) (nn : Byte) : Opcode := f ++ (nibble x ++ nn : BitVec 12)

/-- Formats XY and XYN, `fXYk`. -/
def encXY (f : BitVec 4) (x y : VReg) (k : BitVec 4) : Opcode :=
  f ++ (nibble x ++ (nibble y ++ k : BitVec 8) : BitVec 12)

/-- The word of an instruction, row by row of R56. -/
def encode : Instr → Opcode
  | .cls => 0x00E0#16
  | .ret => 0x00EE#16
  | .jp nnn => encAddr 0x1#4 nnn
  | .call nnn => encAddr 0x2#4 nnn
  | .seImm x nn => encXImm 0x3#4 x nn
  | .sneImm x nn => encXImm 0x4#4 x nn
  | .seReg x y => encXY 0x5#4 x y 0x0#4
  | .ldImm x nn => encXImm 0x6#4 x nn
  | .addImm x nn => encXImm 0x7#4 x nn
  | .ldReg x y => encXY 0x8#4 x y 0x0#4
  | .orReg x y => encXY 0x8#4 x y 0x1#4
  | .andReg x y => encXY 0x8#4 x y 0x2#4
  | .xorReg x y => encXY 0x8#4 x y 0x3#4
  | .addReg x y => encXY 0x8#4 x y 0x4#4
  | .subReg x y => encXY 0x8#4 x y 0x5#4
  | .shr x y => encXY 0x8#4 x y 0x6#4
  | .subn x y => encXY 0x8#4 x y 0x7#4
  | .shl x y => encXY 0x8#4 x y 0xE#4
  | .sneReg x y => encXY 0x9#4 x y 0x0#4
  | .ldI nnn => encAddr 0xA#4 nnn
  | .jpV0 nnn => encAddr 0xB#4 nnn
  | .rnd x nn => encXImm 0xC#4 x nn
  | .drw x y n => encXY 0xD#4 x y (nibble n)
  | .skp x => encXImm 0xE#4 x 0x9E#8
  | .sknp x => encXImm 0xE#4 x 0xA1#8
  | .ldVxDt x => encXImm 0xF#4 x 0x07#8
  | .ldVxK x => encXImm 0xF#4 x 0x0A#8
  | .ldDtVx x => encXImm 0xF#4 x 0x15#8
  | .ldStVx x => encXImm 0xF#4 x 0x18#8
  | .addI x => encXImm 0xF#4 x 0x1E#8
  | .ldF x => encXImm 0xF#4 x 0x29#8
  | .ldB x => encXImm 0xF#4 x 0x33#8
  | .dump x => encXImm 0xF#4 x 0x55#8
  | .load x => encXImm 0xF#4 x 0x65#8
  | .nopUnknown w => w

/-- The two bytes of an instruction as memory holds them (R36). -/
def encodeBytes (i : Instr) : List Byte := [highByte (encode i), lowByte (encode i)]

/-! ## The opcode map as data (R56) -/

/-- A row of the opcode map: a word `w` matches it when `w &&& mask = value`. -/
structure OpcodeRow where
  mask : Opcode
  value : Opcode
  deriving DecidableEq, Repr

/-- A word matches a row (R56: `(w & mask) == match`). -/
def OpcodeRow.admits (r : OpcodeRow) (w : Opcode) : Bool := w &&& r.mask == r.value

/-- The mask and match of an instruction's row, R56's table read line by line; the fallback row has mask 0 (R75). -/
def Instr.row : Instr → OpcodeRow
  | .cls => ⟨0xF0FF#16, 0x00E0#16⟩
  | .ret => ⟨0xF0FF#16, 0x00EE#16⟩
  | .jp _ => ⟨0xF000#16, 0x1000#16⟩
  | .call _ => ⟨0xF000#16, 0x2000#16⟩
  | .seImm _ _ => ⟨0xF000#16, 0x3000#16⟩
  | .sneImm _ _ => ⟨0xF000#16, 0x4000#16⟩
  | .seReg _ _ => ⟨0xF000#16, 0x5000#16⟩
  | .ldImm _ _ => ⟨0xF000#16, 0x6000#16⟩
  | .addImm _ _ => ⟨0xF000#16, 0x7000#16⟩
  | .ldReg _ _ => ⟨0xF00F#16, 0x8000#16⟩
  | .orReg _ _ => ⟨0xF00F#16, 0x8001#16⟩
  | .andReg _ _ => ⟨0xF00F#16, 0x8002#16⟩
  | .xorReg _ _ => ⟨0xF00F#16, 0x8003#16⟩
  | .addReg _ _ => ⟨0xF00F#16, 0x8004#16⟩
  | .subReg _ _ => ⟨0xF00F#16, 0x8005#16⟩
  | .shr _ _ => ⟨0xF00F#16, 0x8006#16⟩
  | .subn _ _ => ⟨0xF00F#16, 0x8007#16⟩
  | .shl _ _ => ⟨0xF00F#16, 0x800E#16⟩
  | .sneReg _ _ => ⟨0xF000#16, 0x9000#16⟩
  | .ldI _ => ⟨0xF000#16, 0xA000#16⟩
  | .jpV0 _ => ⟨0xF000#16, 0xB000#16⟩
  | .rnd _ _ => ⟨0xF000#16, 0xC000#16⟩
  | .drw _ _ _ => ⟨0xF000#16, 0xD000#16⟩
  | .skp _ => ⟨0xF0FF#16, 0xE09E#16⟩
  | .sknp _ => ⟨0xF0FF#16, 0xE0A1#16⟩
  | .ldVxDt _ => ⟨0xF0FF#16, 0xF007#16⟩
  | .ldVxK _ => ⟨0xF0FF#16, 0xF00A#16⟩
  | .ldDtVx _ => ⟨0xF0FF#16, 0xF015#16⟩
  | .ldStVx _ => ⟨0xF0FF#16, 0xF018#16⟩
  | .addI _ => ⟨0xF0FF#16, 0xF01E#16⟩
  | .ldF _ => ⟨0xF0FF#16, 0xF029#16⟩
  | .ldB _ => ⟨0xF0FF#16, 0xF033#16⟩
  | .dump _ => ⟨0xF0FF#16, 0xF055#16⟩
  | .load _ => ⟨0xF0FF#16, 0xF065#16⟩
  | .nopUnknown _ => ⟨0x0000#16, 0x0000#16⟩

/-- The 34 rows of R56, one instruction of each named by its row. -/
def opcodeRows : List OpcodeRow :=
  [Instr.cls, .ret, .jp 0, .call 0, .seImm 0 0, .sneImm 0 0, .seReg 0 0, .ldImm 0 0, .addImm 0 0].map Instr.row ++
  [Instr.ldReg 0 0, .orReg 0 0, .andReg 0 0, .xorReg 0 0, .addReg 0 0, .subReg 0 0, .shr 0 0, .subn 0 0, .shl 0 0].map
    Instr.row ++
  [Instr.sneReg 0 0, .ldI 0, .jpV0 0, .rnd 0 0, .drw 0 0 0, .skp 0, .sknp 0].map Instr.row ++
  [Instr.ldVxDt 0, .ldVxK 0, .ldDtVx 0, .ldStVx 0, .addI 0, .ldF 0, .ldB 0, .dump 0, .load 0].map Instr.row

/-! ## The host's numbering of an instruction's bits -/

/-- The instruction word whose table bits are `w`, of which the table gives `nbits`; the bits above are 0 (log 22). -/
def tableWord (nbits w : Nat) : Opcode := BitVec.ofNat 16 (w % 2 ^ nbits)

/-- What the decoder reads from an instruction given as the opcode table numbers it: the word laid out high byte first (R36)
and decoded from those bytes. -/
def decodeTableWord (nbits w : Nat) : Option Instr :=
  match decodeBytes [highByte (tableWord nbits w), lowByte (tableWord nbits w)] with
  | .ok (i, _) => some i
  | .error _ => none

end Sys2Proof
end

