-- ==== Sys2Proof/Config.lean ====
section
/-! DEFINITION. What is fixed for the machine: the parameters of spec/00_scope.md R4 that the source itself gives, and the
one free value. The parameters whose origin is a decision (font, shift quirk, loader limit) stand in Machine/Params.lean. -/

namespace Sys2Proof

/-- `MEM_SIZE`: bytes of memory, addresses 0 to 4095 (R4, R30). -/
abbrev Config.memSize : Nat := 4096

/-- `PROG_BASE`: where a program starts, the reset value of PC and its value after `StackUnderflow` (R4, R32, R144). -/
abbrev Config.progBase : Nat := 0x200

/-- The random byte the environment gives when none is ready (R23: "an arbitrary value in 0..255 chosen by the environment";
"No law relates successive rnd values"). A free value: it has no body, so nothing can be proved of it. DESIGN CHOICE, log 3. -/
opaque Config.randomByte : Nat → Byte

end Sys2Proof
end

