-- ==== Sys2Proof/Machine/Params.lean ====
section
/-! DEFINITION. The parameters of spec/00_scope.md R4 whose value is a decision of the spec, not the source's own number. -/

namespace Sys2Proof.Machine

/-- `FONT_BASE`, decision D8 (10_state.md R28; log 5). -/
def fontBase : Nat := 0x050

/-- `GLYPH_BYTES` (R4, R28). -/
def glyphBytes : Nat := 5

/-- The 80 font bytes of R28, glyphs 0 to F, top row first; decision D9, general knowledge (PRESUMED by the spec, log 5). -/
def fontTable : List Byte :=
  [0xF0, 0x90, 0x90, 0x90, 0xF0, 0x20, 0x60, 0x20, 0x20, 0x70, 0xF0, 0x10, 0xF0, 0x80, 0xF0, 0xF0, 0x10, 0xF0, 0x10, 0xF0] ++
  [0x90, 0x90, 0xF0, 0x10, 0x10, 0xF0, 0x80, 0xF0, 0x10, 0xF0, 0xF0, 0x80, 0xF0, 0x90, 0xF0, 0xF0, 0x10, 0x20, 0x40, 0x40] ++
  [0xF0, 0x90, 0xF0, 0x90, 0xF0, 0xF0, 0x90, 0xF0, 0x10, 0xF0, 0xF0, 0x90, 0xF0, 0x90, 0x90, 0xE0, 0x90, 0xE0, 0x90, 0xE0] ++
  [0xF0, 0x80, 0x80, 0x80, 0xF0, 0xE0, 0x90, 0x90, 0x90, 0xE0, 0xF0, 0x80, 0xF0, 0x80, 0xF0, 0xF0, 0x80, 0xF0, 0x80, 0x80]

/-- `SHIFT_USES_VY`: whether 8XY6 and 8XYE shift `V[Y]` into `V[X]`; false for this hardware (R4, R97; decision D14, log 13). -/
def shiftUsesVy : Bool := false

/-- `LOAD_MAX`: the longest program the loader takes (R4, R48; decision D25, log 19). -/
def loadMax : Nat := Config.memSize - Config.progBase

end Sys2Proof.Machine
end

