-- ==== Sys2Proof/Machine/State.lean ====
section
/-! DEFINITION. The machine's state (spec/10_state.md R10), the conditions a step reports (spec/60_exceptions.md R140) and the
state after reset (R25). Plain data throughout. -/

namespace Sys2Proof.Machine

/-- `MEM` (R19): the bytes that differ from the reset contents, by rising address. The canonical form is `Memory.wf` of
Machine/Memory.lean; what an unlisted address reads as is `resetByte` there (log 5). -/
structure Memory where
  cells : List Host.Cell
  deriving DecidableEq, Repr

/-- `FB` (R20): 32 rows, row y of 64 one-bit pixels; bit x of a row is the pixel of column x, 1 a pixel that is on (log 28). -/
abbrev Framebuffer := Vector (BitVec 64) 32

/-- The reported conditions with their `info` (R140). The core has no trap (R150): `step` records the condition in
`State.report` and answers a next state, the one the rules give (R141 to R144). Only the sticky reading of R147,
`Safety.strictStep`, stops on one; stopping is safe (the hardware would carry on). Log 1. -/
inductive Fault where
  /-- `OutOfBounds`: raised by the fetch with the PC, and by DXYN, FX33, FX55, FX65 with the highest address they would touch,
  when that is above the last address (R72, R141, R142). -/
  | outOfBounds (address : Nat)
  /-- `StackOverflow`: raised by 2NNN at SP = 16, with the PC of the call (R83, R143). -/
  | stackOverflow (pc : Word)
  /-- `StackUnderflow`: raised by 00EE at SP = 0, with the PC of the return (R81, R144). -/
  | stackUnderflow (pc : Word)
  deriving DecidableEq, Repr

/-- Why an instruction has no meaning here. No arm of `exec` answers with it: every instruction is modelled. -/
inductive Refusal where
  /-- An instruction that has no meaning in this model yet; raised by its arm in Machine/Dispatch.lean (safe: nothing can be
  proved past it). -/
  | notModelled (mnemonic : String)
  deriving DecidableEq, Repr

/-- The whole state of the core (R10), and below it the model's own fields for the inputs and outputs of a step. -/
structure State where
  /-- `MEM`, 4096 bytes (R19). -/
  mem : Memory
  /-- `FB`, 64 by 32 pixels (R20). -/
  fb : Framebuffer
  /-- `V0` to `VF` (R11); VF is the flag (R12). -/
  v : Vector Byte 16
  /-- `I` (R13). -/
  i : Word
  /-- `PC` (R14). -/
  pc : Word
  /-- `SP`, 0 to 16: the number of return addresses on the stack (R15). -/
  sp : Fin 17
  /-- `STK` (R16). -/
  stk : Vector Word 16
  /-- `DT` (R17). -/
  dt : Byte
  /-- `ST` (R18). -/
  st : Byte
  /-- `KEY` (R21): `true` is a pressed key; written by the host only. -/
  key : Vector Bool 16
  /-- The model's own: the report of the last step, an output no operation of the core reads (R8, R140). Log 1. -/
  report : Option Fault
  /-- The model's own: the random bytes the environment has ready, the next one first (R23). Log 3. -/
  rndInput : List Byte
  /-- The model's own: which free random byte comes next when none is ready (R23). Log 3. -/
  rndCount : Nat
  deriving DecidableEq, Repr

/-- The state after `Reset` (R25, R160). V, I, FB, KEY and the memory outside the font are 0 by decision D21 (log 2); the
report is none and no random byte is ready (DESIGN CHOICE, log 21). -/
def State.reset : State where
  mem := ⟨[]⟩
  fb := Vector.replicate 32 0
  v := Vector.replicate 16 0
  i := 0
  pc := BitVec.ofNat 16 Config.progBase
  sp := 0
  stk := Vector.replicate 16 0
  dt := 0
  st := 0
  key := Vector.replicate 16 false
  report := none
  rndInput := []
  rndCount := 0

end Sys2Proof.Machine
end

