-- ==== Sys2Proof/Machine/Memory.lean ====
section
/-! DEFINITION. Memory (spec/20_memory.md R30 to R39): reading and writing one byte over the canonical list of the bytes that
differ from reset, and runs of bytes at rising addresses. -/

namespace Sys2Proof.Machine

/-- What an address reads as while nothing has been written to it: the font bytes (10_state.md R28) and 0 elsewhere (R25,
decision D21; log 2, log 5). -/
def resetByte (a : Nat) : Byte := if fontBase ≤ a then fontTable.getD (a - fontBase) 0 else 0

/-- The byte at address `a` in a list of cells. -/
def lookupCell (a : Nat) : List Host.Cell → Byte
  | [] => resetByte a
  | (b, x) :: rest => if b = a then x else lookupCell a rest

/-- The cells with the byte at `a` set to `x`, in canonical form: sorted, and no entry for a byte equal to the reset one. -/
def putCell (a : Nat) (x : Byte) : List Host.Cell → List Host.Cell
  | [] => if x = resetByte a then [] else [(a, x)]
  | (b, y) :: rest =>
    if a < b then (if x = resetByte a then (b, y) :: rest else (a, x) :: (b, y) :: rest)
    else if a = b then (if x = resetByte a then rest else (a, x) :: rest)
    else (b, y) :: putCell a x rest

/-- The canonical form: addresses strictly rising, inside the memory, and no entry equal to the reset byte. -/
abbrev Memory.wf (m : Memory) : Prop :=
  m.cells.Pairwise (fun c d => c.1 < d.1) ∧ ∀ c ∈ m.cells, c.1 < Config.memSize ∧ c.2 ≠ resetByte c.1

/-- `MEM[a]`; `a` is at most 4095 wherever a step uses it. -/
def Memory.byteAt (m : Memory) (a : Nat) : Byte := lookupCell a m.cells

/-- `MEM[a] <- x`; an address above 4095 does not exist and nothing is written there. -/
def Memory.setByte (m : Memory) (a : Nat) (x : Byte) : Memory :=
  if a < Config.memSize then ⟨putCell a x m.cells⟩ else m

/-- The `n` bytes from address `a` up. -/
def Memory.bytesFrom (m : Memory) (a n : Nat) : List Byte := (List.range n).map fun k => m.byteAt (a + k)

/-- Writes the bytes of a list at rising addresses from `a` (R37). -/
def Memory.setBytes (m : Memory) (a : Nat) : List Byte → Memory
  | [] => m
  | x :: xs => (m.setByte a x).setBytes (a + 1) xs

/-- The address an access to the `n` bytes from `a` up reports as out of bounds: the highest one, when it is above 4095 (R35);
an access to no byte reports none. -/
def runFault (a n : Nat) : Option Nat :=
  if n ≠ 0 ∧ Config.memSize ≤ a + n - 1 then some (a + n - 1) else none

end Sys2Proof.Machine
end

