-- ==== Sys2Proof/Machine/Ops.lean ====
section
/-! DEFINITION. The operations every meaning is built of: the end of a step, the raising of a report, registers, the program
counter, the stack, bounds-checked memory, the framebuffer's pixels, the keypad and the random input. -/

namespace Sys2Proof.Machine

/-! ## How a step ends (spec/00_scope.md R8) -/

/-- A rule that ran to its end: the report is `None` (R8). -/
def complete (s : State) : Host.Outcome State Fault Refusal := .next { s with report := none }

/-- `raise`: the step ends with the report and, but for what the rule wrote before it, the state unchanged (R8, R150). The
one shared operation of every condition; the machine goes on (R147; log 1). -/
def raise (f : Fault) (s : State) : Host.Outcome State Fault Refusal := .next { s with report := some f }

/-! ## Registers (10_state.md R11, R13, R14, R17, R18) -/

/-- `V[r]`. -/
def readV (r : VReg) (s : State) : Byte := s.v[r]

/-- `V[r] <- x`. No register is hard-wired (R11). -/
def writeV (r : VReg) (x : Byte) (s : State) : State := { s with v := s.v.set r x }

/-- `I <- x`. -/
def writeI (x : Word) (s : State) : State := { s with i := x }

/-- `DT <- x`. -/
def writeDt (x : Byte) (s : State) : State := { s with dt := x }

/-- `ST <- x`. -/
def writeSt (x : Byte) (s : State) : State := { s with st := x }

/-! ## The program counter (40_cycle_dispatch.md R74) -/

/-- `PC <- x`. -/
def jumpTo (x : Word) (s : State) : State := { s with pc := x }

/-- `PC <- PC_old + 2`. -/
def nextInstr (s : State) : State := jumpTo (s.pc + 2) s

/-- `PC <- PC_old + 4` when the condition holds, else `PC_old + 2`. -/
def skipIf (c : Bool) (s : State) : State := jumpTo (if c then s.pc + 4 else s.pc + 2) s

/-! ## The call stack (10_state.md R15, R16) -/

/-- `STK[SP_old] <- x; SP <- SP_old + 1`, or nothing when 16 entries are on the stack (41_control_flow.md R83). -/
def push (x : Word) (s : State) : Option State :=
  if h : s.sp.val < 16 then some { s with stk := s.stk.set s.sp.val x, sp := ⟨s.sp.val + 1, by omega⟩ } else none

/-- `SP <- SP_old - 1` with the entry `STK[SP_old - 1]`, which keeps its content, or nothing when the stack is empty (R81). -/
def pop (s : State) : Option (Word × State) :=
  if h : 0 < s.sp.val then
    some (s.stk[s.sp.val - 1]'(by omega), { s with sp := ⟨s.sp.val - 1, by omega⟩ })
  else none

/-! ## Bounds-checked memory (20_memory.md R33, R34, R35) -/

/-- `MemRead(a, 1)`: the byte, or nothing at an address above 4095 (R33). -/
def memRead (a : Nat) (s : State) : Option Byte := if a < Config.memSize then some (s.mem.byteAt a) else none

/-- `MemWrite(a, 1, x)`, or nothing at an address above 4095 (R34). -/
def memWrite (a : Nat) (x : Byte) (s : State) : Option State :=
  if a < Config.memSize then some { s with mem := s.mem.setByte a x } else none

/-- Stores the bytes of a list at rising addresses from `a`, or nothing with the highest address when it is above 4095: the
whole run is checked before any byte is written (R35, R37). -/
def storeRun (a : Nat) (xs : List Byte) (s : State) : Except Nat State :=
  match runFault a xs.length with
  | some top => .error top
  | none => .ok { s with mem := s.mem.setBytes a xs }

/-- Reads the `n` bytes from `a` up, under the same check (R35). -/
def loadRun (a n : Nat) (s : State) : Except Nat (List Byte) :=
  match runFault a n with
  | some top => .error top
  | none => .ok (s.mem.bytesFrom a n)

/-- The instruction fetch: the bytes at PC and PC + 1, high byte first, at any parity; nothing when PC is 4095 or above (40_cycle_dispatch.md R71, R72; 20_memory.md R36, R38). -/
def fetch (s : State) : Option Opcode :=
  match memRead s.pc.toNat s, memRead (s.pc.toNat + 1) s with
  | some hi, some lo => some (opcodeOf hi lo)
  | _, _ => none

/-- Stores a word where the next fetch reads it; nothing where no fetch is possible (log 22). -/
def placeAtPc (w : Opcode) (s : State) : State :=
  if s.pc.toNat + 1 < Config.memSize then
    { s with mem := s.mem.setBytes s.pc.toNat [highByte w, lowByte w] }
  else s

/-! ## The framebuffer (10_state.md R20; 43_display_timers_input.md R110) -/

/-- `FB[y][x]`. -/
def Framebuffer.pixel (fb : Framebuffer) (x : Fin 64) (y : Fin 32) : Bool := fb[y].getLsbD x.val

/-- `FB[y][x] <- FB[y][x] ^ 1`. -/
def Framebuffer.flip (fb : Framebuffer) (x : Fin 64) (y : Fin 32) : Framebuffer :=
  fb.set y (fb[y] ^^^ BitVec.twoPow 64 x.val)

/-- Every pixel off. -/
def Framebuffer.clear : Framebuffer := Vector.replicate 32 0

/-- What a draw builds up: the framebuffer and whether a pixel that was on has been turned off. -/
structure Canvas where
  fb : Framebuffer
  hit : Bool
  deriving DecidableEq, Repr

/-- One set bit of the sprite: the collision is noted, then the pixel is inverted (R110's inner block). -/
def Canvas.plot (x : Fin 64) (y : Fin 32) (c : Canvas) : Canvas := ⟨c.fb.flip x y, c.hit || c.fb.pixel x y⟩

/-- One row of the sprite: columns 0 to 7, column `col` being bit `7 - col` of the byte, at `(x0 + col) mod 64` (R110; bit
order decision D16, log 9). -/
def Canvas.drawRow (x0 : Nat) (y : Fin 32) (sprite : Byte) (c : Canvas) : Canvas :=
  (List.range 8).foldl
    (fun c col => if sprite.getLsbD (7 - col) then c.plot (Fin.ofNat 64 (x0 + col)) y else c) c

/-- The sprite's rows from row `row` on, each at `(y0 + row) mod 32` (R110). -/
def Canvas.drawRows (x0 y0 : Nat) : Nat → List Byte → Canvas → Canvas
  | _, [], c => c
  | row, sprite :: rest, c =>
    Canvas.drawRows x0 y0 (row + 1) rest (c.drawRow x0 (Fin.ofNat 32 (y0 + row)) sprite)

/-! ## The keypad (10_state.md R21; 40_cycle_dispatch.md R78) -/

/-- Whether key `k` is pressed, as the host last wrote it. -/
def keyDown (k : Fin 16) (s : State) : Bool := s.key[k]

/-- The lowest pressed key, if any is pressed (43_display_timers_input.md R114; decision D29, log 23). -/
def lowestKey (s : State) : Option (Fin 16) := (List.finRange 16).find? (keyDown · s)

/-! ## The random input (10_state.md R23) -/

/-- The random byte of the step: the next one the environment has ready, else a free value (log 3). -/
def drawRandom (s : State) : Byte × State :=
  match s.rndInput with
  | b :: rest => (b, { s with rndInput := rest })
  | [] => (Config.randomByte s.rndCount, { s with rndCount := s.rndCount + 1 })

end Sys2Proof.Machine
end

