-- ==== Sys2Proof/Machine/Flags.lean ====
section
/-! DEFINITION. The 8-bit results with the value VF takes beside them (spec/10_state.md R12, spec/42_arith_logic.md R95 to R99),
computed exactly in numbers and narrowed at the end (00_scope.md R6), and the order of the two writes (R90). -/

namespace Sys2Proof.Machine

/-- A flag as VF holds it: 1 or 0. -/
def flagByte (c : Bool) : Byte := if c then 1 else 0

/-- A result masked to 8 bits, and the flag that goes with it. -/
structure Flagged where
  result : Byte
  flag : Bool
  deriving DecidableEq, Repr

/-- `a + b mod 256`; the flag is the carry out, `a + b > 255` (R95). -/
def addFlagged (a b : Byte) : Flagged :=
  ⟨BitVec.ofNat 8 (a.toNat + b.toNat), decide (a.toNat + b.toNat > 255)⟩

/-- `a - b mod 256`; the flag is `a > b`, strictly (R96, R98). -/
def subFlagged (a b : Byte) : Flagged := ⟨a - b, decide (a.toNat > b.toNat)⟩

/-- `a >> 1`; the flag is bit 0 of `a` (R97). -/
def shrFlagged (a : Byte) : Flagged := ⟨a >>> 1, a.getLsbD 0⟩

/-- `(a << 1) & 0xFF`; the flag is bit 7 of `a` (R99). -/
def shlFlagged (a : Byte) : Flagged := ⟨a <<< 1, a.getLsbD 7⟩

/-- VF is written first and `V[x]` second, so with `x = 15` the result survives and the flag is lost (R90; decision D15,
log 8). -/
def writeFlagged (x : VReg) (r : Flagged) (s : State) : State := writeV x r.result (writeV vf (flagByte r.flag) s)

end Sys2Proof.Machine
end

