-- ==== Sys2Proof/Machine/Operands.lean ====
section
/-! DEFINITION. The operand forms (spec/30_encoding.md R52, R53): immediates zero-extended, register values used as a key index, a
font digit, a shift source or a decimal number, and the runs of registers FX55 and FX65 move. -/

namespace Sys2Proof.Machine

/-- `zext_16(NNN)` (R53). -/
def zextAddr (nnn : Addr) : Word := nnn.zeroExtend 16

/-- `zext_16(V[r])` (R53, R88). -/
def zextV (r : VReg) (s : State) : Word := (readV r s).zeroExtend 16

/-- `V[x] & 0xF` as a key index or font digit (43_display_timers_input.md R111, R112, R118; decisions D17, D18, log 10). -/
def lowNibble (x : VReg) (s : State) : Fin 16 := Fin.ofNat 16 (readV x s).toNat

/-- The operand of a shift: `V[Y]` when `usesVy`, else `V[X]` (42_arith_logic.md R97, R99). -/
def shiftSource (usesVy : Bool) (x y : VReg) (s : State) : Byte := if usesVy then readV y s else readV x s

/-- The hundreds, tens and ones of a byte (R119). -/
def bcdDigits (a : Byte) : List Byte :=
  [BitVec.ofNat 8 (a.toNat / 100), BitVec.ofNat 8 (a.toNat / 10 % 10), BitVec.ofNat 8 (a.toNat % 10)]

/-- `V[0]` to `V[x]` (R120). -/
def firstRegs (x : VReg) (s : State) : List Byte := (List.range (x.val + 1)).map fun k => readV (Fin.ofNat 16 k) s

/-- `V[k] <- xs[k]` for every `k` the list has a byte for, the other registers unchanged (R121). -/
def writeFirstRegs (xs : List Byte) (s : State) : State := { s with v := Vector.ofFn fun k => xs.getD k.val s.v[k] }

end Sys2Proof.Machine
end

