-- ==== Sys2Proof/Machine/Arith.lean ====
section
/-! DEFINITION. The arithmetic and logic group (spec/42_arith_logic.md R90 to R100). The operands are read once, before any
write (R90). -/

namespace Sys2Proof.Machine

/-- `LD Vx, Vy` (R91). -/
def execLdReg (x y : VReg) (s : State) : Host.Outcome State Fault Refusal :=
  complete (nextInstr (writeV x (readV y s) s))

/-- `OR Vx, Vy` (R92): VF is not touched (decision D30, log 24). -/
def execOrReg (x y : VReg) (s : State) : Host.Outcome State Fault Refusal :=
  complete (nextInstr (writeV x (readV x s ||| readV y s) s))

/-- `AND Vx, Vy` (R93): VF is not touched (decision D30, log 24). -/
def execAndReg (x y : VReg) (s : State) : Host.Outcome State Fault Refusal :=
  complete (nextInstr (writeV x (readV x s &&& readV y s) s))

/-- `XOR Vx, Vy` (R94): VF is not touched (decision D30, log 24). -/
def execXorReg (x y : VReg) (s : State) : Host.Outcome State Fault Refusal :=
  complete (nextInstr (writeV x (readV x s ^^^ readV y s) s))

/-- `ADD Vx, Vy` (R95). -/
def execAddReg (x y : VReg) (s : State) : Host.Outcome State Fault Refusal :=
  complete (nextInstr (writeFlagged x (addFlagged (readV x s) (readV y s)) s))

/-- `SUB Vx, Vy` (R96). -/
def execSubReg (x y : VReg) (s : State) : Host.Outcome State Fault Refusal :=
  complete (nextInstr (writeFlagged x (subFlagged (readV x s) (readV y s)) s))

/-- `SHR Vx, Vy` (R97): `shiftUsesVy` selects the operand (log 13). -/
def execShr (x y : VReg) (s : State) : Host.Outcome State Fault Refusal :=
  complete (nextInstr (writeFlagged x (shrFlagged (shiftSource shiftUsesVy x y s)) s))

/-- `SUBN Vx, Vy` (R98): the minuend is `V[Y]`. -/
def execSubn (x y : VReg) (s : State) : Host.Outcome State Fault Refusal :=
  complete (nextInstr (writeFlagged x (subFlagged (readV y s) (readV x s)) s))

/-- `SHL Vx, Vy` (R99): `shiftUsesVy` selects the operand (log 13). -/
def execShl (x y : VReg) (s : State) : Host.Outcome State Fault Refusal :=
  complete (nextInstr (writeFlagged x (shlFlagged (shiftSource shiftUsesVy x y s)) s))

/-- `RND Vx, NN` (R100): the random byte of the step, masked (log 3). -/
def execRnd (x : VReg) (nn : Byte) (s : State) : Host.Outcome State Fault Refusal :=
  complete (nextInstr (writeV x ((drawRandom s).1 &&& nn) (drawRandom s).2))

end Sys2Proof.Machine
end

