-- ==== Sys2Proof/Machine/Control.lean ====
section
/-! DEFINITION. The control-flow group (spec/41_control_flow.md R80 to R88) and the unknown-opcode no-op
(spec/40_cycle_dispatch.md R75). Each meaning is the rule's pseudocode; the PC it leaves is final (R74). -/

namespace Sys2Proof.Machine

/-- `CLS` (R80). -/
def execCls (s : State) : Host.Outcome State Fault Refusal := complete (nextInstr { s with fb := Framebuffer.clear })

/-- `RET` (R81): on an empty stack PC becomes 0x200 and `StackUnderflow` is reported with the PC of the return (decision D5,
log 16). -/
def execRet (s : State) : Host.Outcome State Fault Refusal :=
  match pop s with
  | some (target, s') => complete (jumpTo target s')
  | none => raise (.stackUnderflow s.pc) (jumpTo (BitVec.ofNat 16 Config.progBase) s)

/-- `JP NNN` (R82). -/
def execJp (nnn : Addr) (s : State) : Host.Outcome State Fault Refusal := complete (jumpTo (zextAddr nnn) s)

/-- `CALL NNN` (R83): with 16 entries on the stack nothing changes and `StackOverflow` is reported (decision D4, log 15). -/
def execCall (nnn : Addr) (s : State) : Host.Outcome State Fault Refusal :=
  match push (s.pc + 2) s with
  | some s' => complete (jumpTo (zextAddr nnn) s')
  | none => raise (.stackOverflow s.pc) s

/-- `SE Vx, NN` (R84). -/
def execSeImm (x : VReg) (nn : Byte) (s : State) : Host.Outcome State Fault Refusal :=
  complete (skipIf (readV x s == nn) s)

/-- `SNE Vx, NN` (R85). -/
def execSneImm (x : VReg) (nn : Byte) (s : State) : Host.Outcome State Fault Refusal :=
  complete (skipIf (readV x s != nn) s)

/-- `SE Vx, Vy` (R86). -/
def execSeReg (x y : VReg) (s : State) : Host.Outcome State Fault Refusal :=
  complete (skipIf (readV x s == readV y s) s)

/-- `SNE Vx, Vy` (R87). -/
def execSneReg (x y : VReg) (s : State) : Host.Outcome State Fault Refusal :=
  complete (skipIf (readV x s != readV y s) s)

/-- `JP V0, NNN` (R88): the register is always V0; the target is neither masked nor checked (decision D28, log 24). -/
def execJpV0 (nnn : Addr) (s : State) : Host.Outcome State Fault Refusal :=
  complete (jumpTo (zextV 0 s + zextAddr nnn) s)

/-- `NOP.unknown` (R75). -/
def execNopUnknown (s : State) : Host.Outcome State Fault Refusal := complete (nextInstr s)

end Sys2Proof.Machine
end

