-- ==== Sys2Proof/Machine/Device.lean ====
section
/-! DEFINITION. The display, keypad, timer, index and memory group (spec/43_display_timers_input.md R110 to R121). -/

namespace Sys2Proof.Machine

/-- `DRW Vx, Vy, N` (R110): the coordinates are read before VF is written, the whole sprite is checked before any effect
(decision D16, log 9; 20_memory.md R35, log 17). -/
def execDrw (x y : VReg) (n : Fin 16) (s : State) : Host.Outcome State Fault Refusal :=
  match loadRun s.i.toNat n.val s with
  | .error top => raise (.outOfBounds top) s
  | .ok sprite =>
    let drawn := Canvas.drawRows ((readV x s).toNat % 64) ((readV y s).toNat % 32) 0 sprite ⟨s.fb, false⟩
    complete (nextInstr (writeV vf (flagByte drawn.hit) { s with fb := drawn.fb }))

/-- `SKP Vx` (R111). -/
def execSkp (x : VReg) (s : State) : Host.Outcome State Fault Refusal :=
  complete (skipIf (keyDown (lowNibble x s) s) s)

/-- `SKNP Vx` (R112). -/
def execSknp (x : VReg) (s : State) : Host.Outcome State Fault Refusal :=
  complete (skipIf (!keyDown (lowNibble x s) s) s)

/-- `LD Vx, DT` (R113). -/
def execLdVxDt (x : VReg) (s : State) : Host.Outcome State Fault Refusal := complete (nextInstr (writeV x s.dt s))

/-- `LD Vx, K` (R114): with no key pressed nothing changes and the same instruction is fetched again. -/
def execLdVxK (x : VReg) (s : State) : Host.Outcome State Fault Refusal :=
  match lowestKey s with
  | some k => complete (nextInstr (writeV x (BitVec.ofNat 8 k.val) s))
  | none => complete s

/-- `LD DT, Vx` (R115). -/
def execLdDtVx (x : VReg) (s : State) : Host.Outcome State Fault Refusal := complete (nextInstr (writeDt (readV x s) s))

/-- `LD ST, Vx` (R116). -/
def execLdStVx (x : VReg) (s : State) : Host.Outcome State Fault Refusal := complete (nextInstr (writeSt (readV x s) s))

/-- `ADD I, Vx` (R117): modulo 4096, no flag (decision D19, log 11). -/
def execAddI (x : VReg) (s : State) : Host.Outcome State Fault Refusal :=
  complete (nextInstr (writeI (BitVec.ofNat 16 ((s.i.toNat + (readV x s).toNat) % Config.memSize)) s))

/-- `LD F, Vx` (R118). -/
def execLdF (x : VReg) (s : State) : Host.Outcome State Fault Refusal :=
  complete (nextInstr (writeI (BitVec.ofNat 16 (fontBase + glyphBytes * (lowNibble x s).val)) s))

/-- `LD B, Vx` (R119): hundreds at I, tens at I + 1, ones at I + 2. -/
def execLdB (x : VReg) (s : State) : Host.Outcome State Fault Refusal :=
  match storeRun s.i.toNat (bcdDigits (readV x s)) s with
  | .error top => raise (.outOfBounds top) s
  | .ok s' => complete (nextInstr s')

/-- `LD [I], Vx` (R120): `V[k]` at `I + k` for k up to X; I unchanged (decision D20, log 24). -/
def execDump (x : VReg) (s : State) : Host.Outcome State Fault Refusal :=
  match storeRun s.i.toNat (firstRegs x s) s with
  | .error top => raise (.outOfBounds top) s
  | .ok s' => complete (nextInstr s')

/-- `LD Vx, [I]` (R121): `V[k]` from `I + k` for k up to X; I unchanged (decision D20, log 24). -/
def execLoad (x : VReg) (s : State) : Host.Outcome State Fault Refusal :=
  match loadRun s.i.toNat (x.val + 1) s with
  | .error top => raise (.outOfBounds top) s
  | .ok bytes => complete (nextInstr (writeFirstRegs bytes s))

end Sys2Proof.Machine
end

