-- ==== Sys2Proof/Machine/Immediate.lean ====
section
/-! DEFINITION. The immediate loads (spec/44_immediate_loads.md R130 to R132; decision D13, log 12). -/

namespace Sys2Proof.Machine

/-- `LD Vx, NN` (R130). -/
def execLdImm (x : VReg) (nn : Byte) (s : State) : Host.Outcome State Fault Refusal :=
  complete (nextInstr (writeV x nn s))

/-- `ADD Vx, NN` (R131): modulo 256, VF not touched. -/
def execAddImm (x : VReg) (nn : Byte) (s : State) : Host.Outcome State Fault Refusal :=
  complete (nextInstr (writeV x (readV x s + nn) s))

/-- `LD I, NNN` (R132). -/
def execLdI (nnn : Addr) (s : State) : Host.Outcome State Fault Refusal :=
  complete (nextInstr (writeI (zextAddr nnn) s))

end Sys2Proof.Machine
end

