-- ==== Sys2Proof/Machine/Step.lean ====
section
/-! DEFINITION. One `Cycle` (spec/40_cycle_dispatch.md R70): fetch, decode, run one handler; the engine adds nothing to what the
handler does (R74). The host's other operations stand in Machine/HostOps.lean (log 18). -/

namespace Sys2Proof.Machine

/-- `Cycle`: with PC at 4095 or above the fetch reports `OutOfBounds(PC)` and nothing changes (R72); otherwise the word at PC is
decoded and its rule runs (R70). -/
def step (s : State) : Host.Outcome State Fault Refusal :=
  match fetch s with
  | none => raise (.outOfBounds s.pc.toNat) s
  | some w => exec (decode w) s

/-- The state with an instruction, numbered as the opcode table numbers it, where the next fetch reads it (log 22). It stands for
the host's `Load` of a program (log 19). -/
def State.withFetchWord (s : State) (nbits w : Nat) : State := placeAtPc (tableWord nbits w) s

end Sys2Proof.Machine
end

