-- ==== Sys2Proof/Machine/HostOps.lean ====
section
/-! DEFINITION. What the host can do to the core (spec/60_exceptions.md R159): `Reset`, `Load`, `SetKeys`, `Cycle`, `TimerTick`, and
the reads of the framebuffer and the sound timer. Operations are whole and totally ordered (20_memory.md R43). -/

namespace Sys2Proof.Machine

/-- `Reset()` (70_reset_and_hazards.md R160). The random input is the environment's, not the core's, and is not reset (R161;
log 4). -/
def hostReset (s : State) : State := { State.reset with rndInput := s.rndInput, rndCount := s.rndCount }

/-- `Load(bytes)` (20_memory.md R48): the bytes from 0x200 up, or nothing when there are more than 3584 (decision D25, log 19). -/
def loadProgram (bytes : List Byte) (s : State) : Option State :=
  if bytes.length ≤ loadMax then some { s with mem := s.mem.setBytes Config.progBase bytes } else none

/-- `SetKeys(k16)` (10_state.md R21): bit k is key k; every key is written. -/
def setKeys (k16 : BitVec 16) (s : State) : State := { s with key := Vector.ofFn fun k => k16.getLsbD k.val }

/-- One tick of a timer: down by 1, never below 0 (R152). -/
def tickDown (t : Byte) : Byte := BitVec.ofNat 8 (t.toNat - 1)

/-- `TimerTick()` (R152): both timers, each on its own (decision D23, log 25). -/
def timerTick (s : State) : State := { s with dt := tickDown s.dt, st := tickDown s.st }

/-- The host's read of a pixel (R159); it changes nothing. -/
def readPixel (x : Fin 64) (y : Fin 32) (s : State) : Bool := s.fb.pixel x y

/-- The host's read of the sound timer (R156, R159); it changes nothing. -/
def readSound (s : State) : Byte := s.st

/-- `Cycle(rnd)` (40_cycle_dispatch.md R70): a step whose random input is `rnd`; a step that does not use the byte ignores it
(10_state.md R23). -/
def cycle (rnd : Byte) (s : State) : Host.Outcome State Fault Refusal :=
  match step { s with rndInput := [rnd] } with
  | .next t => .next { t with rndInput := s.rndInput }
  | .fault f => .fault f
  | .refused r => .refused r

/-- The operations of R159 that change state. -/
inductive HostOp where
  | reset
  | load (bytes : List Byte)
  | setKeys (k16 : BitVec 16)
  | cycle (rnd : Byte)
  | timerTick
  deriving DecidableEq, Repr

/-- A core with what the rules of R159 say of its past: whether it may still be loaded ("after `Reset`, before the first
`Cycle`; once"). -/
structure Session where
  core : State
  loadable : Bool
  deriving DecidableEq, Repr

/-- Why an operation of the host is not performed; the session is then unchanged (safe: the interface offers no such move). -/
inductive HostRefusal where
  /-- `LoadError`: the program does not fit below address 4096 (R146, R48). -/
  | loadError (length : Nat)
  /-- `Load` after the first `Cycle` or after another `Load` (R159, R165; log 19). -/
  | loadNotAllowed
  /-- The core itself refused the step; no instruction of this model does. -/
  | core (r : Refusal)
  deriving DecidableEq, Repr

/-- One operation of the host on a session (R159, R162). -/
def perform : HostOp → Session → Host.Outcome Session Fault HostRefusal
  | .reset, h => .next ⟨hostReset h.core, true⟩
  | .load bytes, h =>
    if h.loadable then
      match loadProgram bytes h.core with
      | some s => .next ⟨s, false⟩
      | none => .refused (.loadError bytes.length)
    else .refused .loadNotAllowed
  | .setKeys k16, h => .next { h with core := setKeys k16 h.core }
  | .cycle rnd, h =>
    match cycle rnd h.core with
    | .next s => .next ⟨s, false⟩
    | .fault f => .fault f
    | .refused r => .refused (.core r)
  | .timerTick, h => .next { h with core := timerTick h.core }

/-- The session right after `Reset()` (R162). -/
def Session.start : Session := ⟨State.reset, true⟩

end Sys2Proof.Machine
end

