-- ==== Sys2Proof/Safety.lean ====
section
/-! DEFINITION. The terms claims use: the invariant of reachable states (spec/10_state.md R26), the sticky reading of a report (spec/60_exceptions.md R147), and where a run has ended (spec/70_reset_and_hazards.md R168). -/

namespace Sys2Proof.Machine

/-- R26: what holds in every state reachable from reset. `SP <= 16` and the widths of V, DT, ST and MEM hold by the fields'
types. -/
structure State.Inv (s : State) : Prop where
  /-- Memory is in its canonical form, inside 0..4095 (R19). -/
  mem : s.mem.wf
  /-- `I <= 0xFFF` (R13). -/
  i : s.i.toNat ≤ 0xFFF
  /-- `PC <= 0x10FE` (R14). -/
  pc : s.pc.toNat ≤ 0x10FE
  /-- `STK[k] <= 4096` (R26). -/
  stk : ∀ k : Fin 16, s.stk[k].toNat ≤ 4096

/-- The step reported nothing (R140). -/
def State.quiet (s : State) : Bool := s.report.isNone

/-- The sticky reading of R147: a step that reports a condition is a fault of the run, and the run stops there. It errs toward
unprovable (the hardware would carry on). -/
def strictStep (s : State) : Host.Outcome State Fault Refusal :=
  match step s with
  | .next t =>
    match t.report with
    | some f => .fault f
    | none => .next t
  | .fault f => .fault f
  | .refused r => .refused r

/-- A run of `k` steps under the sticky reading. -/
def strictRun : Nat → State → Host.Outcome State Fault Refusal
  | 0, s => .next s
  | k + 1, s =>
    match strictStep s with
    | .next t => strictRun k t
    | .fault f => .fault f
    | .refused r => .refused r

/-- R168: the run has ended when the word at PC is a jump to PC itself. -/
def State.ended (s : State) : Bool :=
  match fetch s with
  | some w => decode w == .jp (s.pc.truncate 12) && s.pc.toNat ≤ 0xFFF
  | none => false

/-- The sessions a host can bring about from reset (R26, R159). -/
inductive Reachable : Session → Prop where
  | start : Reachable Session.start
  | move {h h' : Session} (op : HostOp) : Reachable h → perform op h = .next h' → Reachable h'

end Sys2Proof.Machine
end

