-- ==== Sys2Proof/Certificates/Slice0/Obligations.lean ====
section
/-! DEFINITION. The statements for the provers, from the numbered rules of spec/. A statement about an instruction says when it
answers a next state, what that state holds, and by `Claims.SameBut…` that nothing else changed. -/

open Sys2Proof Sys2Proof.Machine

namespace Sys2Proof.Claims

/-! ## The fields of a word as numbers (spec/30_encoding.md R51) -/

/-- `w[11:8]`. -/
def X (w : Opcode) : VReg := Fin.ofNat 16 (w.toNat / 256)

/-- `w[7:4]`. -/
def Y (w : Opcode) : VReg := Fin.ofNat 16 (w.toNat / 16)

/-- `w[3:0]`. -/
def N (w : Opcode) : Fin 16 := Fin.ofNat 16 w.toNat

/-- `w[7:0]`. -/
def NN (w : Opcode) : Byte := BitVec.ofNat 8 w.toNat

/-- `w[11:0]`. -/
def NNN (w : Opcode) : Addr := BitVec.ofNat 12 w.toNat

/-- Every word with `(w & mask) == value` decodes to the instruction `i w` (R56). -/
def Encodes (mask value : Opcode) (i : Opcode → Instr) : Prop := ∀ w : Opcode, w &&& mask = value → decode w = i w

/-! ## Frames: what a next state `t` leaves as it was in `s`

The report is an output of the step, not state (spec/00_scope.md R8), so every frame leaves it open and the statements give its
value. -/

/-- Nothing but PC differs. -/
def SameButPc (s t : State) : Prop := { t with pc := s.pc, report := s.report } = s

/-- Nothing but the V registers and PC differs. -/
def SameButVPc (s t : State) : Prop := { t with v := s.v, pc := s.pc, report := s.report } = s

/-- Nothing but I and PC differs. -/
def SameButIPc (s t : State) : Prop := { t with i := s.i, pc := s.pc, report := s.report } = s

/-- Nothing but SP, the stack and PC differs. -/
def SameButStackPc (s t : State) : Prop := { t with sp := s.sp, stk := s.stk, pc := s.pc, report := s.report } = s

/-- Nothing but memory and PC differs. -/
def SameButMemPc (s t : State) : Prop := { t with mem := s.mem, pc := s.pc, report := s.report } = s

/-- Every V register but those of the list holds what it held. -/
def KeepsVBut (rs : List VReg) (s t : State) : Prop := ∀ r, r ∉ rs → readV r t = readV r s

/-- The step ended normally, two bytes on (R8, R74). -/
def Advances (s t : State) : Prop := t.pc = s.pc + 2 ∧ t.report = none

/-- The access to the `n` bytes from I up stays inside memory (spec/20_memory.md R35); an access to no byte does. -/
def RunFits (n : Nat) (s : State) : Prop := n = 0 ∨ s.i.toNat + n - 1 ≤ 4095

/-- The sprite of `n` rows at I, drawn at (x0, y0), has a set bit that falls on pixel (px, py) (spec/43_display_timers_input.md
R110). -/
def SpriteSets (s : State) (x0 y0 n : Nat) (px : Fin 64) (py : Fin 32) : Prop :=
  ∃ row < n, ∃ col < 8, (s.mem.byteAt (s.i.toNat + row)).getLsbD (7 - col) = true ∧
    px.val = (x0 % 64 + col) % 64 ∧ py.val = (y0 % 32 + row) % 32

/-- The operands of a decoded instruction are the fields its format names (R51, R52, R53). -/
def OperandsAreFields (w : Opcode) : Instr → Prop
  | .cls | .ret => True
  | .jp nnn | .call nnn | .ldI nnn | .jpV0 nnn => nnn.toNat = w.toNat % 4096
  | .seImm x nn | .sneImm x nn | .ldImm x nn | .addImm x nn | .rnd x nn =>
    x.val = w.toNat / 256 % 16 ∧ nn.toNat = w.toNat % 256
  | .seReg x y | .sneReg x y | .ldReg x y | .orReg x y | .andReg x y | .xorReg x y | .addReg x y | .subReg x y
  | .shr x y | .subn x y | .shl x y => x.val = w.toNat / 256 % 16 ∧ y.val = w.toNat / 16 % 16
  | .drw x y n => x.val = w.toNat / 256 % 16 ∧ y.val = w.toNat / 16 % 16 ∧ n.val = w.toNat % 16
  | .skp x | .sknp x | .ldVxDt x | .ldVxK x | .ldDtVx x | .ldStVx x | .addI x | .ldF x | .ldB x | .dump x | .load x =>
    x.val = w.toNat / 256 % 16
  | .nopUnknown u => u = w

/-- What R74's table gives as PC after an instruction, as a number. -/
def nextPc (i : Instr) (s : State) : Nat :=
  let plain := (s.pc + 2).toNat
  let skip := (s.pc + 4).toNat
  let fits (n : Nat) := if n = 0 ∨ s.i.toNat + n - 1 ≤ 4095 then plain else s.pc.toNat
  match i with
  | .jp nnn => nnn.toNat
  | .jpV0 nnn => (readV 0 s).toNat + nnn.toNat
  | .call nnn => if s.sp.val < 16 then nnn.toNat else s.pc.toNat
  | .ret => if h : 0 < s.sp.val then (s.stk[s.sp.val - 1]'(by omega)).toNat else 0x200
  | .seImm x nn => if readV x s = nn then skip else plain
  | .sneImm x nn => if readV x s = nn then plain else skip
  | .seReg x y => if readV x s = readV y s then skip else plain
  | .sneReg x y => if readV x s = readV y s then plain else skip
  | .skp x => if keyDown (lowNibble x s) s then skip else plain
  | .sknp x => if keyDown (lowNibble x s) s then plain else skip
  | .ldVxK _ => if ∃ k, keyDown k s = true then plain else s.pc.toNat
  | .drw _ _ n => fits n.val
  | .ldB _ => fits 3
  | .dump x | .load x => fits (x.val + 1)
  | .cls | .ldImm _ _ | .addImm _ _ | .ldReg _ _ | .orReg _ _ | .andReg _ _ | .xorReg _ _ | .addReg _ _ | .subReg _ _
  | .shr _ _ | .subn _ _ | .shl _ _ | .ldI _ | .rnd _ _ | .ldVxDt _ | .ldDtVx _ | .ldStVx _ | .addI _ | .ldF _
  | .nopUnknown _ => plain

/-- The condition R140 gives for an instruction, with its `info`. -/
def reportOf (i : Instr) (s : State) : Option Fault :=
  let bounds (n : Nat) := if n ≠ 0 ∧ 4095 < s.i.toNat + n - 1 then some (Fault.outOfBounds (s.i.toNat + n - 1)) else none
  match i with
  | .drw _ _ n => bounds n.val
  | .ldB _ => bounds 3
  | .dump x | .load x => bounds (x.val + 1)
  | .call _ => if s.sp.val = 16 then some (.stackOverflow s.pc) else none
  | .ret => if s.sp.val = 0 then some (.stackUnderflow s.pc) else none
  | .cls | .jp _ | .seImm _ _ | .sneImm _ _ | .seReg _ _ | .ldImm _ _ | .addImm _ _ | .ldReg _ _ | .orReg _ _ | .andReg _ _
  | .xorReg _ _ | .addReg _ _ | .subReg _ _ | .shr _ _ | .subn _ _ | .shl _ _ | .sneReg _ _ | .ldI _ | .jpV0 _ | .rnd _ _
  | .skp _ | .sknp _ | .ldVxDt _ | .ldVxK _ | .ldDtVx _ | .ldStVx _ | .addI _ | .ldF _ | .nopUnknown _ => none

/-- The registers R11 lets an instruction write: `V[X]`, VF for the flag writers, `V[0]` to `V[X]` for FX65. -/
def writesV : Instr → List VReg
  | .ldImm x _ | .addImm x _ | .rnd x _ | .ldVxDt x | .ldVxK x => [x]
  | .ldReg x _ | .orReg x _ | .andReg x _ | .xorReg x _ => [x]
  | .addReg x _ | .subReg x _ | .shr x _ | .subn x _ | .shl x _ => [x, vf]
  | .drw _ _ _ => [vf]
  | .load x => (List.finRange 16).filter (· ≤ x)
  | .cls | .ret | .jp _ | .call _ | .seImm _ _ | .sneImm _ _ | .seReg _ _ | .sneReg _ _ | .ldI _ | .jpV0 _ | .skp _ | .sknp _
  | .ldDtVx _ | .ldStVx _ | .addI _ | .ldF _ | .ldB _ | .dump _ | .nopUnknown _ => []

/-- The instruction at PC: decoded from `MEM[PC] * 256 + MEM[PC+1]` (R36). -/
def fetched (s : State) : Instr :=
  decode (BitVec.ofNat 16 ((s.mem.byteAt s.pc.toNat).toNat * 256 + (s.mem.byteAt (s.pc.toNat + 1)).toNat))

end Sys2Proof.Claims

/-! ## Encoding (spec/30_encoding.md) -/

/-- Decoding an encoded well-formed instruction gives it back, from the word and from its bytes with anything after them. -/
def Obligations.DecodeInvertsEncode : Prop :=
  ∀ i : Instr, i.wellFormed = true → decode (encode i) = i ∧ ∀ rest, decodeBytes (encodeBytes i ++ rest) = .ok (i, rest)

/-- Every word decodes to a well-formed instruction, and encoding that gives the word back but for the bits R58 ignores, which
come back 0 (R60): `w[11:8]` of CLS and RET, `w[3:0]` of families 5 and 9. Which bits are ignored is D11 and D12 (log 7). -/
def Obligations.EncodeRestoresDecodedWord : Prop :=
  ∀ w : Opcode, (decode w).wellFormed = true ∧
    encode (decode w) =
      match decode w with
      | .cls | .ret => w &&& 0xF0FF#16
      | .seReg _ _ | .sneReg _ _ => w &&& 0xFFF0#16
      | _ => w

/-- R56: the 34 rows are pairwise disjoint; a word that matches a row decodes to that row's instruction, and a word that matches
none is kept as an unknown one. -/
def Obligations.OpcodeMapRowsSelectInstruction : Prop :=
  opcodeRows.length = 34 ∧
  opcodeRows.Pairwise (fun r q => ∀ w, ¬(r.admits w = true ∧ q.admits w = true)) ∧
  ∀ w : Opcode,
    (∀ r ∈ opcodeRows, r.admits w = true → (decode w).row = r) ∧
    ((∀ r ∈ opcodeRows, r.admits w = false) → decode w = .nopUnknown w)

/-- R51, R53: every operand of a decoded instruction is the contiguous, unsigned field of the word that its format names. -/
def Obligations.OperandsAreTheWordsFields : Prop := ∀ w : Opcode, Claims.OperandsAreFields w (decode w)

/-- R57: the unknown words are exactly those of the table, by family and key. The keys are D11 (log 7). -/
def Obligations.UnknownWordsAreTheListedOnes : Prop :=
  ∀ w : Opcode, (∃ u, decode w = .nopUnknown u) ↔
    (w.toNat / 4096 = 0x0 ∧ w.toNat % 256 ∉ [0xE0, 0xEE]) ∨
    (w.toNat / 4096 = 0x8 ∧ w.toNat % 16 ∈ [0x8, 0x9, 0xA, 0xB, 0xC, 0xD, 0xF]) ∨
    (w.toNat / 4096 = 0xE ∧ w.toNat % 256 ∉ [0x9E, 0xA1]) ∨
    (w.toNat / 4096 = 0xF ∧ w.toNat % 256 ∉ [0x07, 0x0A, 0x15, 0x18, 0x1E, 0x29, 0x33, 0x55, 0x65])

/-- Words written out from R56 and the programs of spec/95_test_vectors.md decode to the instructions they stand for. -/
def Obligations.SampleWordsDecode : Prop :=
  [0x00E0#16, 0x00EE#16, 0x1206#16, 0x2208#16, 0x3000#16, 0x609D#16, 0x8014#16, 0xA300#16, 0xD125#16].map decode =
    [.cls, .ret, .jp 0x206, .call 0x208, .seImm 0 0, .ldImm 0 0x9D, .addReg 0 1, .ldI 0x300, .drw 1 2 5] ∧
  [0xE49E#16, 0xF30A#16, 0xF033#16, 0xF155#16, 0xF265#16, 0xC30F#16, 0x0000#16].map decode =
    [.skp 4, .ldVxK 3, .ldB 0, .dump 1, .load 2, .rnd 3 0x0F, .nopUnknown 0]

/-! ## The step (spec/40_cycle_dispatch.md) -/

/-- R70, R71, R36: with PC at most 4094 a step is `exec` of the instruction decoded from the bytes at PC (the more significant)
and PC + 1, at that very state. That the engine adds nothing to it is D3 (log 14), and that a word is fetched at an odd PC too is
D24 (log 26). -/
def Obligations.StepRunsDecodedInstruction : Prop :=
  ∀ s : State, s.pc.toNat ≤ 4094 → step s = exec (Claims.fetched s) s

/-- R72, R141: with PC at 4095 or above a step reports `OutOfBounds(PC)` and changes nothing, and so does every later step. That
the state is unchanged is D7 (log 17). -/
def Obligations.FetchPastEndReportsOutOfBounds : Prop :=
  ∀ s : State, 4095 ≤ s.pc.toNat →
    step s = .next { s with report := some (.outOfBounds s.pc.toNat) } ∧
    ∀ k, Sys2Proof.core.run (k + 1) s = .next { s with report := some (.outOfBounds s.pc.toNat) }

/-- R77, R57: every step of every state answers a next state: no word stops the machine. -/
def Obligations.EveryStepAnswersNextState : Prop :=
  (∀ s : State, ∃ t, step s = .next t) ∧ ∀ (i : Instr) (s : State), ∃ t, exec i s = .next t

/-! ## Control flow (spec/41_control_flow.md) -/

/-- R80: `CLS` turns every pixel off and changes nothing else but PC. The opcode number is general knowledge of the spec (D10,
log 6), the key and the bits it ignores D11 (log 7). -/
def Obligations.ClsClearsFramebuffer : Prop :=
  Claims.Encodes 0xF0FF#16 0x00E0#16 (fun _ => .cls) ∧
  ∀ s : State, ∃ t, exec .cls s = .next t ∧ Claims.Advances s t ∧ (∀ x y, t.fb.pixel x y = false) ∧
    { t with fb := s.fb, pc := s.pc, report := s.report } = s

/-- R81: `RET` pops the return address, whose entry keeps its content; on an empty stack PC becomes 0x200, `StackUnderflow` is
reported with the PC of the return, and nothing else changes (D5, log 16). The opcode number is general knowledge of the spec
(D10, log 6), the key and the bits it ignores D11 (log 7). -/
def Obligations.RetPopsReturnAddress : Prop :=
  Claims.Encodes 0xF0FF#16 0x00EE#16 (fun _ => .ret) ∧
  (∀ (s : State) (k : Fin 16), s.sp.val = k.val + 1 → ∃ t, exec .ret s = .next t ∧ t.report = none ∧
    t.pc = s.stk[k] ∧ t.sp.val = k.val ∧ t.stk = s.stk ∧ Claims.SameButStackPc s t) ∧
  ∀ s : State, s.sp.val = 0 → ∃ t, exec .ret s = .next t ∧ t.report = some (.stackUnderflow s.pc) ∧
    t.pc.toNat = 0x200 ∧ Claims.SameButPc s t

/-- R82: `JP NNN` sets PC to the 12-bit operand and changes nothing else, a jump to its own address included. The opcode number
is general knowledge of the spec (D10, log 6). -/
def Obligations.JpSetsPcToOperand : Prop :=
  Claims.Encodes 0xF000#16 0x1000#16 (fun w => .jp (Claims.NNN w)) ∧
  ∀ (nnn : Addr) (s : State), ∃ t, exec (.jp nnn) s = .next t ∧ t.report = none ∧ t.pc.toNat = nnn.toNat ∧
    Claims.SameButPc s t

/-- R88: `JP V0, NNN` sets PC to `V0 + NNN`, exactly, unmasked and unchecked (D28, log 24). The opcode number is general
knowledge of the spec (D10, log 6). -/
def Obligations.JpV0AddsV0ToOperand : Prop :=
  Claims.Encodes 0xF000#16 0xB000#16 (fun w => .jpV0 (Claims.NNN w)) ∧
  ∀ (nnn : Addr) (s : State), ∃ t, exec (.jpV0 nnn) s = .next t ∧ t.report = none ∧
    t.pc.toNat = (readV 0 s).toNat + nnn.toNat ∧ Claims.SameButPc s t

/-- R83: `CALL NNN` pushes `PC + 2` at `STK[SP]`, increments SP and jumps; with 16 entries it changes nothing at all and
reports `StackOverflow` with its PC (D4, log 15). The opcode number is general knowledge of the spec (D10, log 6). -/
def Obligations.CallPushesReturnAddress : Prop :=
  Claims.Encodes 0xF000#16 0x2000#16 (fun w => .call (Claims.NNN w)) ∧
  (∀ (nnn : Addr) (s : State), s.sp.val < 16 → ∃ t, exec (.call nnn) s = .next t ∧ t.report = none ∧
    t.pc.toNat = nnn.toNat ∧ t.sp.val = s.sp.val + 1 ∧
    (∀ k : Fin 16, t.stk[k] = if k.val = s.sp.val then s.pc + 2 else s.stk[k]) ∧ Claims.SameButStackPc s t) ∧
  ∀ (nnn : Addr) (s : State), s.sp.val = 16 →
    exec (.call nnn) s = .next { s with report := some (.stackOverflow s.pc) }

/-- §8 S4: a call followed by a return comes back to the instruction after the call, with SP as it was, at every depth; only the
entry the call wrote differs. -/
def Obligations.ReturnUndoesCall : Prop :=
  ∀ (nnn : Addr) (s : State), s.sp.val < 16 → ∃ t u, exec (.call nnn) s = .next t ∧ exec .ret t = .next u ∧
    u.pc = s.pc + 2 ∧ u.sp = s.sp ∧ u.report = none ∧
    (∀ k : Fin 16, k.val ≠ s.sp.val → u.stk[k] = s.stk[k]) ∧ Claims.SameButStackPc s u

/-- R84, R85: the skips on an immediate: PC + 4 when `V[X]` equals (SE) or differs from (SNE) `NN`, else PC + 2; nothing else
changes. Opcode numbers are general knowledge of the spec (D10, log 6). -/
def Obligations.ImmediateSkipsCompare : Prop :=
  Claims.Encodes 0xF000#16 0x3000#16 (fun w => .seImm (Claims.X w) (Claims.NN w)) ∧
  Claims.Encodes 0xF000#16 0x4000#16 (fun w => .sneImm (Claims.X w) (Claims.NN w)) ∧
  ∀ (x : VReg) (nn : Byte) (s : State),
    (∃ t, exec (.seImm x nn) s = .next t ∧ t.report = none ∧ Claims.SameButPc s t ∧
      (readV x s = nn → t.pc = s.pc + 4) ∧ (readV x s ≠ nn → t.pc = s.pc + 2)) ∧
    ∃ t, exec (.sneImm x nn) s = .next t ∧ t.report = none ∧ Claims.SameButPc s t ∧
      (readV x s ≠ nn → t.pc = s.pc + 4) ∧ (readV x s = nn → t.pc = s.pc + 2)

/-- R86, R87: the skips on two registers; the low nibble of the word is ignored (R58; D12, log 7). Opcode numbers are general
knowledge of the spec (D10, log 6). -/
def Obligations.RegisterSkipsCompare : Prop :=
  Claims.Encodes 0xF000#16 0x5000#16 (fun w => .seReg (Claims.X w) (Claims.Y w)) ∧
  Claims.Encodes 0xF000#16 0x9000#16 (fun w => .sneReg (Claims.X w) (Claims.Y w)) ∧
  ∀ (x y : VReg) (s : State),
    (∃ t, exec (.seReg x y) s = .next t ∧ t.report = none ∧ Claims.SameButPc s t ∧
      (readV x s = readV y s → t.pc = s.pc + 4) ∧ (readV x s ≠ readV y s → t.pc = s.pc + 2)) ∧
    ∃ t, exec (.sneReg x y) s = .next t ∧ t.report = none ∧ Claims.SameButPc s t ∧
      (readV x s ≠ readV y s → t.pc = s.pc + 4) ∧ (readV x s = readV y s → t.pc = s.pc + 2)

/-- R75, R145: a step on a word that matches no row of R56 moves PC on by 2, reports nothing and changes nothing else. Which words
those are is the map of D10 (log 6) with the keys of D11 (log 7), 0x0000 among them; that the instruction carries its word is the
model's choice (log 29). -/
def Obligations.UnknownWordOnlyAdvancesPc : Prop :=
  (∀ (w : Opcode) (s : State), exec (.nopUnknown w) s = .next { s with pc := s.pc + 2, report := none }) ∧
  ∀ (w : Opcode) (s : State), s.pc.toNat ≤ 4094 →
    w.toNat = (s.mem.byteAt s.pc.toNat).toNat * 256 + (s.mem.byteAt (s.pc.toNat + 1)).toNat →
    (∀ r ∈ opcodeRows, r.admits w = false) → step s = .next { s with pc := s.pc + 2, report := none }

/-! ## Arithmetic and logic (spec/42_arith_logic.md) -/

/-- R91: `LD Vx, Vy` copies `V[Y]` into `V[X]`; no other register changes. The opcode number is general knowledge of the spec
(D10, log 6), the key and the bits it ignores D11 (log 7). -/
def Obligations.LdRegCopiesRegister : Prop :=
  Claims.Encodes 0xF00F#16 0x8000#16 (fun w => .ldReg (Claims.X w) (Claims.Y w)) ∧
  ∀ (x y : VReg) (s : State), ∃ t, exec (.ldReg x y) s = .next t ∧ Claims.Advances s t ∧
    readV x t = readV y s ∧ Claims.KeepsVBut [x] s t ∧ Claims.SameButVPc s t

/-- R93, R94: AND and XOR combine the registers bit by bit into `V[X]`; VF is written only as `V[X]`. Opcode numbers are
general knowledge of the spec (D10, log 6), the key and the bits it ignores D11 (log 7). -/
def Obligations.AndXorCombineBits : Prop :=
  Claims.Encodes 0xF00F#16 0x8002#16 (fun w => .andReg (Claims.X w) (Claims.Y w)) ∧
  Claims.Encodes 0xF00F#16 0x8003#16 (fun w => .xorReg (Claims.X w) (Claims.Y w)) ∧
  ∀ (x y : VReg) (s : State),
    (∃ t, exec (.andReg x y) s = .next t ∧ Claims.Advances s t ∧
      (∀ k < 8, (readV x t).getLsbD k = ((readV x s).getLsbD k && (readV y s).getLsbD k)) ∧
      Claims.KeepsVBut [x] s t ∧ Claims.SameButVPc s t) ∧
    ∃ t, exec (.xorReg x y) s = .next t ∧ Claims.Advances s t ∧
      (∀ k < 8, (readV x t).getLsbD k = Bool.xor ((readV x s).getLsbD k) ((readV y s).getLsbD k)) ∧
      Claims.KeepsVBut [x] s t ∧ Claims.SameButVPc s t

/-- R92: OR combines the registers bit by bit into `V[X]`; that VF is not touched is D30 (log 24). The opcode number is general
knowledge of the spec (D10, log 6), the key and the bits it ignores D11 (log 7). -/
def Obligations.OrCombinesBits : Prop :=
  Claims.Encodes 0xF00F#16 0x8001#16 (fun w => .orReg (Claims.X w) (Claims.Y w)) ∧
  ∀ (x y : VReg) (s : State), ∃ t, exec (.orReg x y) s = .next t ∧ Claims.Advances s t ∧
    (∀ k < 8, (readV x t).getLsbD k = ((readV x s).getLsbD k || (readV y s).getLsbD k)) ∧
    Claims.KeepsVBut [x] s t ∧ Claims.SameButVPc s t

/-- R95, R90, §8 S1: ADD leaves the sum modulo 256 in `V[X]` and, unless X is 0xF, the carry in VF. With X = 0xF the sum stays
in VF (D15, log 8). The opcode number is general knowledge of the spec (D10, log 6), the key and the bits it ignores D11 (log
7). -/
def Obligations.AddRegAddsWithCarryFlag : Prop :=
  Claims.Encodes 0xF00F#16 0x8004#16 (fun w => .addReg (Claims.X w) (Claims.Y w)) ∧
  ∀ (x y : VReg) (s : State), ∃ t, exec (.addReg x y) s = .next t ∧ Claims.Advances s t ∧
    (readV x t).toNat = ((readV x s).toNat + (readV y s).toNat) % 256 ∧
    (x ≠ 15 → ((readV x s).toNat + (readV y s).toNat > 255 → readV 15 t = 1) ∧
      ((readV x s).toNat + (readV y s).toNat ≤ 255 → readV 15 t = 0)) ∧
    Claims.KeepsVBut [x, 15] s t ∧ Claims.SameButVPc s t

/-- R96, R98, R90, §8 S2: SUB and SUBN leave minuend minus subtrahend modulo 256 in `V[X]` and, unless X is 0xF, in VF whether
the minuend is strictly greater. With X = 0xF the difference stays in VF (D15, log 8). Opcode numbers are general knowledge of
the spec (D10, log 6), the key and the bits it ignores D11 (log 7). -/
def Obligations.SubtractionsCompareStrictly : Prop :=
  Claims.Encodes 0xF00F#16 0x8005#16 (fun w => .subReg (Claims.X w) (Claims.Y w)) ∧
  Claims.Encodes 0xF00F#16 0x8007#16 (fun w => .subn (Claims.X w) (Claims.Y w)) ∧
  ∀ (x y : VReg) (s : State),
    (∃ t, exec (.subReg x y) s = .next t ∧ Claims.Advances s t ∧
      (readV x t).toNat = ((readV x s).toNat + 256 - (readV y s).toNat) % 256 ∧
      (x ≠ 15 → ((readV x s).toNat > (readV y s).toNat → readV 15 t = 1) ∧
        ((readV x s).toNat ≤ (readV y s).toNat → readV 15 t = 0)) ∧
      Claims.KeepsVBut [x, 15] s t ∧ Claims.SameButVPc s t) ∧
    ∃ t, exec (.subn x y) s = .next t ∧ Claims.Advances s t ∧
      (readV x t).toNat = ((readV y s).toNat + 256 - (readV x s).toNat) % 256 ∧
      (x ≠ 15 → ((readV y s).toNat > (readV x s).toNat → readV 15 t = 1) ∧
        ((readV y s).toNat ≤ (readV x s).toNat → readV 15 t = 0)) ∧
      Claims.KeepsVBut [x, 15] s t ∧ Claims.SameButVPc s t

/-- R97, R99, R90: the shifts by one, of `V[X]` in place whatever Y names (D14, log 13); unless X is 0xF the bit shifted out is
in VF, with X = 0xF the result stays there (D15, log 8). Opcode numbers are general knowledge of the spec (D10, log 6), the key
and the bits it ignores D11 (log 7). -/
def Obligations.ShiftsMoveOneBit : Prop :=
  Claims.Encodes 0xF00F#16 0x8006#16 (fun w => .shr (Claims.X w) (Claims.Y w)) ∧
  Claims.Encodes 0xF00F#16 0x800E#16 (fun w => .shl (Claims.X w) (Claims.Y w)) ∧
  ∀ (x y : VReg) (s : State),
    (∃ t, exec (.shr x y) s = .next t ∧ Claims.Advances s t ∧ (readV x t).toNat = (readV x s).toNat / 2 ∧
      (x ≠ 15 → (readV 15 t).toNat = (readV x s).toNat % 2) ∧ Claims.KeepsVBut [x, 15] s t ∧ Claims.SameButVPc s t) ∧
    ∃ t, exec (.shl x y) s = .next t ∧ Claims.Advances s t ∧ (readV x t).toNat = (readV x s).toNat * 2 % 256 ∧
      (x ≠ 15 → (readV 15 t).toNat = (readV x s).toNat / 128) ∧ Claims.KeepsVBut [x, 15] s t ∧ Claims.SameButVPc s t

/-- R97, R99, U1: the operand of a shift and its result and flag, for either value of `SHIFT_USES_VY`: of `V[Y]` when it is true,
of `V[X]` when it is false; this hardware's value is false (log 13). -/
def Obligations.ShiftQuirkSelectsOperand : Prop :=
  shiftUsesVy = false ∧
  ∀ (usesVy : Bool) (x y r : VReg) (s : State), r = (if usesVy then y else x) →
    (shrFlagged (shiftSource usesVy x y s)).result.toNat = (readV r s).toNat / 2 ∧
    (flagByte (shrFlagged (shiftSource usesVy x y s)).flag).toNat = (readV r s).toNat % 2 ∧
    (shlFlagged (shiftSource usesVy x y s)).result.toNat = (readV r s).toNat * 2 % 256 ∧
    (flagByte (shlFlagged (shiftSource usesVy x y s)).flag).toNat = (readV r s).toNat / 128

/-- R100, R23: `RND Vx, NN` leaves `rnd & NN` in `V[X]`, for every byte the environment may have ready, which it uses up; with
no byte ready `V[X]` is some `rnd & NN`. Only the random input (the model's own fields, log 3) changes beside `V[X]` and PC.
The opcode number is general knowledge of the spec (D10, log 6). -/
def Obligations.RndMasksRandomByte : Prop :=
  Claims.Encodes 0xF000#16 0xC000#16 (fun w => .rnd (Claims.X w) (Claims.NN w)) ∧
  ∀ (x : VReg) (nn : Byte) (s : State), ∃ t, exec (.rnd x nn) s = .next t ∧ Claims.Advances s t ∧
    (∀ (b : Byte) (rest : List Byte), s.rndInput = b :: rest →
      readV x t = b &&& nn ∧ t.rndInput = rest ∧ t.rndCount = s.rndCount) ∧
    (∃ b : Byte, readV x t = b &&& nn) ∧ (∀ k < 8, nn.getLsbD k = false → (readV x t).getLsbD k = false) ∧
    Claims.KeepsVBut [x] s t ∧
    { t with v := s.v, pc := s.pc, report := s.report, rndInput := s.rndInput, rndCount := s.rndCount } = s

/-! ## Immediate loads (spec/44_immediate_loads.md) -/

/-- R130, R131, R132 (the spec's D13, log 12): load and add an immediate, VF untouched unless it is `V[X]`; load I. Opcode
numbers are general knowledge of the spec (D10, log 6). -/
def Obligations.ImmediateLoadsWriteOperand : Prop :=
  Claims.Encodes 0xF000#16 0x6000#16 (fun w => .ldImm (Claims.X w) (Claims.NN w)) ∧
  Claims.Encodes 0xF000#16 0x7000#16 (fun w => .addImm (Claims.X w) (Claims.NN w)) ∧
  Claims.Encodes 0xF000#16 0xA000#16 (fun w => .ldI (Claims.NNN w)) ∧
  (∀ (x : VReg) (nn : Byte) (s : State),
    (∃ t, exec (.ldImm x nn) s = .next t ∧ Claims.Advances s t ∧ readV x t = nn ∧ Claims.KeepsVBut [x] s t ∧
      Claims.SameButVPc s t) ∧
    ∃ t, exec (.addImm x nn) s = .next t ∧ Claims.Advances s t ∧
      (readV x t).toNat = ((readV x s).toNat + nn.toNat) % 256 ∧ Claims.KeepsVBut [x] s t ∧ Claims.SameButVPc s t) ∧
  ∀ (nnn : Addr) (s : State), ∃ t, exec (.ldI nnn) s = .next t ∧ Claims.Advances s t ∧ t.i.toNat = nnn.toNat ∧
    Claims.SameButIPc s t

/-! ## Display, keypad, timers, index, memory (spec/43_display_timers_input.md) -/

/-- R110: a sprite inside memory is drawn: every pixel under a set bit is inverted and no other; VF is 1 exactly when such a
pixel was on; nothing else changes. Coordinates are the old `V[X]`, `V[Y]`, VF included (D16, log 9). The opcode number is
general knowledge of the spec (D10, log 6). -/
def Obligations.DrwInvertsSpritePixels : Prop :=
  Claims.Encodes 0xF000#16 0xD000#16 (fun w => .drw (Claims.X w) (Claims.Y w) (Claims.N w)) ∧
  ∀ (x y : VReg) (n : Fin 16) (s : State), Claims.RunFits n.val s → ∃ t, exec (.drw x y n) s = .next t ∧ Claims.Advances s t ∧
    (∀ px py,
      (Claims.SpriteSets s (readV x s).toNat (readV y s).toNat n.val px py → t.fb.pixel px py = !s.fb.pixel px py) ∧
      (¬Claims.SpriteSets s (readV x s).toNat (readV y s).toNat n.val px py → t.fb.pixel px py = s.fb.pixel px py)) ∧
    ((∃ px py, Claims.SpriteSets s (readV x s).toNat (readV y s).toNat n.val px py ∧ s.fb.pixel px py = true) →
      readV 15 t = 1) ∧
    ((∀ px py, Claims.SpriteSets s (readV x s).toNat (readV y s).toNat n.val px py → s.fb.pixel px py = false) →
      readV 15 t = 0) ∧
    Claims.KeepsVBut [15] s t ∧ { t with fb := s.fb, v := s.v, pc := s.pc, report := s.report } = s

/-- R110, §8 S3: drawing the same sprite twice at the same position restores the framebuffer; VF is 0 after the first draw
over an empty area, and 1 after the second exactly when the sprite has a set bit over a pixel that was off at first, so over an
empty area whenever it has a set bit. X and Y are not 0xF, so that the coordinates are the same both times;
`DrwInvertsSpritePixels` covers one draw with them. That bit 7 of a sprite byte is column 0 is general knowledge of the spec, and
that N = 0 draws nothing and leaves VF 0 its decision (D16, log 9). -/
def Obligations.DrawingTwiceRestoresFramebuffer : Prop :=
  ∀ (x y : VReg) (n : Fin 16) (s : State), x ≠ 15 → y ≠ 15 → Claims.RunFits n.val s →
    ∃ t u, exec (.drw x y n) s = .next t ∧ exec (.drw x y n) t = .next u ∧ u.fb = s.fb ∧
      ((∀ px py, Claims.SpriteSets s (readV x s).toNat (readV y s).toNat n.val px py → s.fb.pixel px py = false) →
        readV 15 t = 0) ∧
      ((∃ px py, Claims.SpriteSets s (readV x s).toNat (readV y s).toNat n.val px py ∧ s.fb.pixel px py = false) →
        readV 15 u = 1) ∧
      ((∀ px py, Claims.SpriteSets s (readV x s).toNat (readV y s).toNat n.val px py → s.fb.pixel px py = true) →
        readV 15 u = 0)

/-- R142, R35, R140: DXYN, FX33, FX55 and FX65 whose highest address is above 4095 report `OutOfBounds` with that address and
change nothing at all (D6, log 17). -/
def Obligations.DataAccessPastEndChangesNothing : Prop :=
  ∀ (x y : VReg) (n : Fin 16) (s : State),
    (n.val ≠ 0 → 4095 < s.i.toNat + n.val - 1 →
      exec (.drw x y n) s = .next { s with report := some (.outOfBounds (s.i.toNat + n.val - 1)) }) ∧
    (4095 < s.i.toNat + 2 → exec (.ldB x) s = .next { s with report := some (.outOfBounds (s.i.toNat + 2)) }) ∧
    (4095 < s.i.toNat + x.val →
      exec (.dump x) s = .next { s with report := some (.outOfBounds (s.i.toNat + x.val)) } ∧
      exec (.load x) s = .next { s with report := some (.outOfBounds (s.i.toNat + x.val)) })

/-- R111, R112: the keypad skips; the key is the low nibble of `V[X]` (D17, log 10). Opcode numbers are general knowledge of
the spec (D10, log 6), the key and the bits it ignores D11 (log 7). -/
def Obligations.KeySkipsReadKeypad : Prop :=
  Claims.Encodes 0xF0FF#16 0xE09E#16 (fun w => .skp (Claims.X w)) ∧
  Claims.Encodes 0xF0FF#16 0xE0A1#16 (fun w => .sknp (Claims.X w)) ∧
  ∀ (x : VReg) (k : Fin 16) (s : State), (readV x s).toNat % 16 = k.val →
    (∃ t, exec (.skp x) s = .next t ∧ t.report = none ∧ Claims.SameButPc s t ∧
      (s.key[k] = true → t.pc = s.pc + 4) ∧ (s.key[k] = false → t.pc = s.pc + 2)) ∧
    ∃ t, exec (.sknp x) s = .next t ∧ t.report = none ∧ Claims.SameButPc s t ∧
      (s.key[k] = false → t.pc = s.pc + 4) ∧ (s.key[k] = true → t.pc = s.pc + 2)

/-- R113, R115, R116: the timer copies: DT to `V[X]`, `V[X]` to DT, `V[X]` to ST, each with nothing else changed. Opcode
numbers are general knowledge of the spec (D10, log 6), the key and the bits it ignores D11 (log 7). -/
def Obligations.TimerCopiesMoveByte : Prop :=
  Claims.Encodes 0xF0FF#16 0xF007#16 (fun w => .ldVxDt (Claims.X w)) ∧
  Claims.Encodes 0xF0FF#16 0xF015#16 (fun w => .ldDtVx (Claims.X w)) ∧
  Claims.Encodes 0xF0FF#16 0xF018#16 (fun w => .ldStVx (Claims.X w)) ∧
  ∀ (x : VReg) (s : State),
    (∃ t, exec (.ldVxDt x) s = .next t ∧ Claims.Advances s t ∧ readV x t = s.dt ∧ Claims.KeepsVBut [x] s t ∧
      Claims.SameButVPc s t) ∧
    (∃ t, exec (.ldDtVx x) s = .next t ∧ Claims.Advances s t ∧ t.dt = readV x s ∧
      { t with dt := s.dt, pc := s.pc, report := s.report } = s) ∧
    ∃ t, exec (.ldStVx x) s = .next t ∧ Claims.Advances s t ∧ t.st = readV x s ∧
      { t with st := s.st, pc := s.pc, report := s.report } = s

/-- R114: wait for a key: the lowest pressed key goes to `V[X]` (D29, log 23); with none pressed nothing changes at all and
nothing is reported. The opcode number is general knowledge of the spec (D10, log 6), the key and the bits it ignores D11 (log
7). -/
def Obligations.WaitForKeyStallsOrStoresLowest : Prop :=
  Claims.Encodes 0xF0FF#16 0xF00A#16 (fun w => .ldVxK (Claims.X w)) ∧
  (∀ (x : VReg) (k : Fin 16) (s : State), s.key[k] = true → (∀ j : Fin 16, j < k → s.key[j] = false) →
    ∃ t, exec (.ldVxK x) s = .next t ∧ Claims.Advances s t ∧ (readV x t).toNat = k.val ∧ Claims.KeepsVBut [x] s t ∧
      Claims.SameButVPc s t) ∧
  ∀ (x : VReg) (s : State), (∀ j : Fin 16, s.key[j] = false) → exec (.ldVxK x) s = .next { s with report := none }

/-- R117, R118: `ADD I, Vx` adds modulo 4096 and sets no flag (D19, log 11); `LD F, Vx` points I at the glyph of the low nibble
of `V[X]` (D8, D18, log 5, log 10). Opcode numbers are general knowledge of the spec (D10, log 6), the key and the bits it
ignores D11 (log 7). -/
def Obligations.IndexOperationsWriteI : Prop :=
  Claims.Encodes 0xF0FF#16 0xF01E#16 (fun w => .addI (Claims.X w)) ∧
  Claims.Encodes 0xF0FF#16 0xF029#16 (fun w => .ldF (Claims.X w)) ∧
  ∀ (x : VReg) (s : State),
    (∃ t, exec (.addI x) s = .next t ∧ Claims.Advances s t ∧ t.i.toNat = (s.i.toNat + (readV x s).toNat) % 4096 ∧
      Claims.SameButIPc s t) ∧
    ∃ t, exec (.ldF x) s = .next t ∧ Claims.Advances s t ∧ t.i.toNat = 0x050 + 5 * ((readV x s).toNat % 16) ∧
      Claims.SameButIPc s t

/-- R119: `LD B, Vx` stores the decimal digits of `V[X]` at I, I + 1, I + 2 and no other byte; nothing else changes. That
memory is in its canonical form is `StepKeepsInvariant`. The opcode number is general knowledge of the spec (D10, log 6), the
key and the bits it ignores D11 (log 7). -/
def Obligations.BcdStoresDecimalDigits : Prop :=
  Claims.Encodes 0xF0FF#16 0xF033#16 (fun w => .ldB (Claims.X w)) ∧
  ∀ (x : VReg) (s : State), s.mem.wf → s.i.toNat + 2 ≤ 4095 → ∃ t, exec (.ldB x) s = .next t ∧ Claims.Advances s t ∧
    (t.mem.byteAt s.i.toNat).toNat = (readV x s).toNat / 100 ∧
    (t.mem.byteAt (s.i.toNat + 1)).toNat = (readV x s).toNat / 10 % 10 ∧
    (t.mem.byteAt (s.i.toNat + 2)).toNat = (readV x s).toNat % 10 ∧
    (∀ a, ¬(s.i.toNat ≤ a ∧ a ≤ s.i.toNat + 2) → t.mem.byteAt a = s.mem.byteAt a) ∧ Claims.SameButMemPc s t

/-- R120: `LD [I], Vx` stores `V[k]` at I + k for k up to X and no other byte; I is unchanged (D20, log 24). The opcode number
is general knowledge of the spec (D10, log 6), the key and the bits it ignores D11 (log 7). -/
def Obligations.DumpStoresRegisters : Prop :=
  Claims.Encodes 0xF0FF#16 0xF055#16 (fun w => .dump (Claims.X w)) ∧
  ∀ (x : VReg) (s : State), s.mem.wf → s.i.toNat + x.val ≤ 4095 → ∃ t, exec (.dump x) s = .next t ∧ Claims.Advances s t ∧
    (∀ k : VReg, k ≤ x → t.mem.byteAt (s.i.toNat + k.val) = readV k s) ∧
    (∀ a, ¬(s.i.toNat ≤ a ∧ a ≤ s.i.toNat + x.val) → t.mem.byteAt a = s.mem.byteAt a) ∧ Claims.SameButMemPc s t

/-- R121: `LD Vx, [I]` loads `V[k]` from I + k for k up to X and no other register; I is unchanged (D20, log 24). The opcode
number is general knowledge of the spec (D10, log 6), the key and the bits it ignores D11 (log 7). -/
def Obligations.LoadReadsRegisters : Prop :=
  Claims.Encodes 0xF0FF#16 0xF065#16 (fun w => .load (Claims.X w)) ∧
  ∀ (x : VReg) (s : State), s.i.toNat + x.val ≤ 4095 → ∃ t, exec (.load x) s = .next t ∧ Claims.Advances s t ∧
    (∀ k : VReg, k ≤ x → readV k t = s.mem.byteAt (s.i.toNat + k.val)) ∧
    (∀ k : VReg, x < k → readV k t = readV k s) ∧ Claims.SameButVPc s t

/-- §8 S6: a dump, any change of the registers, then a load with the same X through the same I brings back `V[0]` to `V[X]`. -/
def Obligations.LoadUndoesDump : Prop :=
  ∀ (x : VReg) (s : State) (scratch : Vector Byte 16), s.mem.wf → s.i.toNat + x.val ≤ 4095 →
    ∃ t u, exec (.dump x) s = .next t ∧ exec (.load x) { t with v := scratch } = .next u ∧
      (∀ k : VReg, k ≤ x → readV k u = readV k s) ∧ (∀ k : VReg, x < k → readV k u = scratch[k]) ∧ u.i = s.i

/-! ## Rules of the whole machine -/

/-- R74: the PC after every instruction is the one of the table, for all 35 of them (D3, log 14), under the conditions the
instructions' own rules give. Choices it contains: the low nibble as the key of EX9E and EXA1 (D17, log 10), FX0A going on at a
held key (D29, log 23), PC kept by an access past 4095 (D6, log 17) with N = 0 exempt (D16, log 9), PC kept by a call on a full
stack (D4, log 15) and set to 0x200 by a return on an empty one (D5, log 16), the unmasked target of BNNN (D28, log 24), and, in
states no run reaches, the wrap of PC + 2 and PC + 4 at 16 bits where R74 says exact (log 20). -/
def Obligations.PcAfterEveryInstruction : Prop :=
  ∀ (i : Instr) (s t : State), exec i s = .next t → t.pc.toNat = Claims.nextPc i s

/-- R140, R149: what every instruction reports: `OutOfBounds`, `StackOverflow` and `StackUnderflow` with their `info` exactly
under their conditions, and nothing otherwise; a step reports `OutOfBounds(PC)` when the fetch fails and else what its
instruction reports (log 1). That an access reports its highest address is D6 (log 17), that N = 0 accesses nothing is D16
(log 9). -/
def Obligations.ReportsExactlyTheListedConditions : Prop :=
  (∀ (i : Instr) (s t : State), exec i s = .next t → t.report = Claims.reportOf i s) ∧
  ∀ s t : State, step s = .next t →
    t.report = if 4095 ≤ s.pc.toNat then some (.outOfBounds s.pc.toNat) else Claims.reportOf (Claims.fetched s) s

/-- R11, R12: an instruction changes only the V registers R11 names for it. -/
def Obligations.RegistersChangeOnlyAsListed : Prop :=
  ∀ (i : Instr) (s t : State) (r : VReg), exec i s = .next t → r ∉ Claims.writesV i → readV r t = readV r s

/-- R10, R20, R30: only CLS and DRW change the framebuffer; only FX33 and FX55 change memory. -/
def Obligations.FramebufferAndMemoryWriters : Prop :=
  ∀ (i : Instr) (s t : State), exec i s = .next t →
    (t.fb = s.fb ∨ i = .cls ∨ ∃ x y n, i = .drw x y n) ∧ (t.mem = s.mem ∨ ∃ x, i = .ldB x ∨ i = .dump x)

/-- R13: only ANNN, FX1E and FX29 change I, and each leaves it at most 0xFFF. -/
def Obligations.IndexRegisterWriters : Prop :=
  ∀ (i : Instr) (s t : State), exec i s = .next t →
    t.i = s.i ∨ (t.i.toNat ≤ 0xFFF ∧ ((∃ nnn, i = .ldI nnn) ∨ ∃ x, i = .addI x ∨ i = .ldF x))

/-- R15: SP is a number of 0 to 16, 0 at reset. 2NNN increments it, and only below 16, and writes the entry SP indexes, the next
free one, with PC + 2; 00EE decrements it, and only above 0. No other instruction writes SP or the stack, and none reads them: it does the
same whatever they hold. Of the host's operations only a reset and a step change them. -/
def Obligations.StackPointerMovesOnlyByCallAndReturn : Prop :=
  (∀ s : State, s.sp.val ≤ 16) ∧ State.reset.sp.val = 0 ∧
  (∀ (i : Instr) (s t : State), exec i s = .next t →
    (t.sp = s.sp ∧ t.stk = s.stk) ∨
    ((∃ nnn, i = .call nnn) ∧ s.sp.val < 16 ∧ t.sp.val = s.sp.val + 1 ∧
      ∀ k : Fin 16, t.stk[k] = if k.val = s.sp.val then s.pc + 2 else s.stk[k]) ∨
    (i = .ret ∧ 0 < s.sp.val ∧ s.sp.val = t.sp.val + 1 ∧ t.stk = s.stk)) ∧
  (∀ (i : Instr) (s t : State) (sp : Fin 17) (stk : Vector Word 16), exec i s = .next t → i ≠ .ret → (∀ nnn, i ≠ .call nnn) →
    exec i { s with sp := sp, stk := stk } = .next { t with sp := sp, stk := stk }) ∧
  ∀ (op : HostOp) (h h' : Session), perform op h = .next h' → op ≠ .reset → (∀ rnd, op ≠ .cycle rnd) →
    h'.core.sp = h.core.sp ∧ h'.core.stk = h.core.stk

/-- R76: DT and ST change in a step only through FX15 and FX18, whatever the step fetched or reported. -/
def Obligations.StepMovesTimersOnlyByTheirCopies : Prop :=
  ∀ s t : State, step s = .next t →
    (t.dt = s.dt ∨ (s.pc.toNat ≤ 4094 ∧ ∃ x, Claims.fetched s = .ldDtVx x ∧ t.dt = readV x s)) ∧
    (t.st = s.st ∨ (s.pc.toNat ≤ 4094 ∧ ∃ x, Claims.fetched s = .ldStVx x ∧ t.st = readV x s))

/-- R21, R78: no step writes the keypad, and an instruction other than EX9E, EXA1 and FX0A does the same whatever keys are
pressed. -/
def Obligations.KeypadOnlyReadByKeyInstructions : Prop :=
  (∀ s t : State, step s = .next t → t.key = s.key) ∧
  ∀ (i : Instr) (s t : State) (keys : Vector Bool 16), exec i s = .next t →
    (∀ x, i ≠ .skp x ∧ i ≠ .sknp x ∧ i ≠ .ldVxK x) → exec i { s with key := keys } = .next { t with key := keys }

/-- R18, R10, R31: no instruction reads ST, and none but DRW reads the framebuffer: states that differ only in these go on
alike, these apart. -/
def Obligations.SoundTimerAndFramebufferReaders : Prop :=
  ∀ (i : Instr) (s t : State), exec i s = .next t →
    (∀ b : Byte, ∃ c, exec i { s with st := b } = .next { t with st := c } ∧ ((∀ x, i ≠ .ldStVx x) → c = b)) ∧
    ∀ fb : Framebuffer, (∀ x y n, i ≠ .drw x y n) →
      ∃ fb', exec i { s with fb := fb } = .next { t with fb := fb' } ∧ (i ≠ .cls → fb' = fb)

/-- R33, R34, R40: a read gives the byte and has no effect; a write sets that byte and no other, at every address 0 to 4095, in
the font and the program too. Outside, neither happens and `OutOfBounds` is raised with the address, as the register load and the
register dump show whose one access above 4095 it is. -/
def Obligations.MemoryReadsAndWritesOneByte : Prop :=
  ∀ (a : Nat) (s : State), s.mem.wf →
    (a ≤ 4095 → memRead a s = some (s.mem.byteAt a) ∧
      ∀ x : Byte, ∃ t, memWrite a x s = some t ∧ { t with mem := s.mem } = s ∧
        (∀ b, t.mem.byteAt b = if b = a then x else s.mem.byteAt b) ∧ t.mem.wf) ∧
    (4095 < a → memRead a s = none ∧ (∀ x : Byte, memWrite a x s = none) ∧
      ∀ x : VReg, s.i.toNat + x.val = a → x.val = 0 ∨ a = 4096 →
        (∃ t, exec (.load x) s = .next t ∧ t.report = some (.outOfBounds a)) ∧
        ∃ t, exec (.dump x) s = .next t ∧ t.report = some (.outOfBounds a))

/-- R19: memory is its 4096 bytes and nothing else: two memories in canonical form that read alike are equal. -/
def Obligations.CanonicalMemoriesReadingAlikeAreEqual : Prop :=
  ∀ m m' : Memory, m.wf → m'.wf → (∀ a ≤ 4095, m.byteAt a = m'.byteAt a) → m = m'

/-- R45, R71: a store into the instruction stream is what the next step fetches: after a dump of at least two registers onto the
two bytes that follow it, the next step runs the instruction those registers spell. -/
def Obligations.NextFetchSeesStore : Prop :=
  ∀ (x : VReg) (s t : State), s.mem.wf → 1 ≤ x.val → s.pc.toNat ≤ 4092 → s.i = s.pc + 2 → s.i.toNat + x.val ≤ 4095 →
    exec (.dump x) s = .next t →
    step t = exec (decode (BitVec.ofNat 16 ((readV 0 s).toNat * 256 + (readV 1 s).toNat))) t

/-- R168: where the word at PC jumps to PC itself, every further step leaves the whole state unchanged and reports nothing. -/
def Obligations.JumpToSelfLeavesStateUnchanged : Prop :=
  ∀ s : State, s.ended = true → ∀ k, Sys2Proof.core.run (k + 1) s = .next { s with report := none }

/-- R147: the sticky reading. A strict step is the step where that reports nothing, and a fault with the condition where it reports
one. A strict run of `k` steps ends in a state exactly when the machine's run ends there and none of its `k` steps reported; it
ends in a fault exactly when some step reports that condition and no step before it reported; it is never refused (log 1). -/
def Obligations.StrictRunStopsAtFirstReport : Prop :=
  (∀ s t : State, step s = .next t →
    (t.report = none → strictStep s = .next t) ∧ ∀ f, t.report = some f → strictStep s = .fault f) ∧
  (∀ (k : Nat) (s t : State), strictRun k s = .next t ↔
    Sys2Proof.core.run k s = .next t ∧
      ∀ j < k, ∃ u : State, Sys2Proof.core.run (j + 1) s = .next u ∧ u.report = none) ∧
  (∀ (k : Nat) (s : State) (f : Fault), strictRun k s = .fault f ↔
    ∃ j < k, (∀ m < j, ∃ u : State, Sys2Proof.core.run (m + 1) s = .next u ∧ u.report = none) ∧
      ∃ u : State, Sys2Proof.core.run (j + 1) s = .next u ∧ u.report = some f) ∧
  ∀ (k : Nat) (s : State) (r : Refusal), strictRun k s ≠ .refused r

/-! ## Reset, invariants and the host (spec/10_state.md, spec/60_exceptions.md, spec/70_reset_and_hazards.md) -/

/-- R25, R160: what reset leaves in every component of R10. PC, SP, the stack and the timers are the source's; the zeros of V, I,
FB, KEY and of memory outside the font are D21 (log 2); the font's place and its 80 bytes, R28's table glyph by glyph, are D8 and
D9 (log 5). -/
def Obligations.ResetStateAsListed : Prop :=
  State.reset.pc.toNat = 0x200 ∧ State.reset.sp.val = 0 ∧ (∀ k : Fin 16, State.reset.stk[k] = 0) ∧
  State.reset.dt = 0 ∧ State.reset.st = 0 ∧ (∀ r, readV r State.reset = 0) ∧ State.reset.i = 0 ∧
  (∀ x y, State.reset.fb.pixel x y = false) ∧ (∀ k, keyDown k State.reset = false) ∧
  (∀ a, ¬(0x050 ≤ a ∧ a ≤ 0x09F) → State.reset.mem.byteAt a = 0) ∧
  State.reset.mem.bytesFrom 0x050 20 =
    [0xF0, 0x90, 0x90, 0x90, 0xF0] ++ [0x20, 0x60, 0x20, 0x20, 0x70] ++
    [0xF0, 0x10, 0xF0, 0x80, 0xF0] ++ [0xF0, 0x10, 0xF0, 0x10, 0xF0] ∧
  State.reset.mem.bytesFrom 0x064 20 =
    [0x90, 0x90, 0xF0, 0x10, 0x10] ++ [0xF0, 0x80, 0xF0, 0x10, 0xF0] ++
    [0xF0, 0x80, 0xF0, 0x90, 0xF0] ++ [0xF0, 0x10, 0x20, 0x40, 0x40] ∧
  State.reset.mem.bytesFrom 0x078 20 =
    [0xF0, 0x90, 0xF0, 0x90, 0xF0] ++ [0xF0, 0x90, 0xF0, 0x10, 0xF0] ++
    [0xF0, 0x90, 0xF0, 0x90, 0x90] ++ [0xE0, 0x90, 0xE0, 0x90, 0xE0] ∧
  State.reset.mem.bytesFrom 0x08C 20 =
    [0xF0, 0x80, 0x80, 0x80, 0xF0] ++ [0xE0, 0x90, 0x90, 0x90, 0xE0] ++
    [0xF0, 0x80, 0xF0, 0x80, 0xF0] ++ [0xF0, 0x80, 0xF0, 0x80, 0x80]

/-- R26 at reset. -/
def Obligations.ResetMeetsInvariant : Prop := State.reset.Inv

/-- R26: every step keeps the invariant of reachable states: memory canonical and inside 0..4095, I at most 0xFFF, PC at most
0x10FE, every stack entry at most 4096. The bound on I rests on D19 (log 11), the one on PC on D28 (log 24). -/
def Obligations.StepKeepsInvariant : Prop := ∀ s t : State, s.Inv → step s = .next t → t.Inv

/-- R26 over the host's whole interface: every session reachable from reset by any sequence of the operations of R159 meets the
invariant (log 18). The bound on I rests on D19 (log 11), the one on PC on D28 (log 24). -/
def Obligations.ReachableSessionsMeetInvariant : Prop := ∀ h : Session, Reachable h → h.core.Inv

/-- R152, R155: a tick moves each timer down by 1, stops it at 0, and changes nothing else; one tick moves both (D23, log 25). -/
def Obligations.TimerTickDecrementsBoth : Prop :=
  ∀ s : State, (timerTick s).dt.toNat = s.dt.toNat - 1 ∧ (timerTick s).st.toNat = s.st.toNat - 1 ∧
    { timerTick s with dt := s.dt, st := s.st } = s

/-- R48: `Load` puts the bytes of a program of at most 3584 bytes at 0x200 up and changes nothing else; a longer one is refused
(D25); it is offered after reset, once, before the first `Cycle`, which ends the offer (R159; log 19). That `SetKeys` and
`TimerTick` leave the offer as it was is the model's reading (DEDUCED, log 19). -/
def Obligations.LoadPlacesProgram : Prop :=
  ∀ (bytes : List Byte) (h : Session),
    (h.core.mem.wf → h.loadable = true → bytes.length ≤ 3584 → ∃ h', perform (.load bytes) h = .next h' ∧ h'.loadable = false ∧
      (∀ k, k < bytes.length → h'.core.mem.byteAt (0x200 + k) = bytes.getD k 0) ∧
      (∀ a, ¬(0x200 ≤ a ∧ a < 0x200 + bytes.length) → h'.core.mem.byteAt a = h.core.mem.byteAt a) ∧
      { h'.core with mem := h.core.mem } = h.core) ∧
    (h.loadable = true → 3584 < bytes.length → perform (.load bytes) h = .refused (.loadError bytes.length)) ∧
    (h.loadable = false → perform (.load bytes) h = .refused .loadNotAllowed) ∧
    (∃ h', perform .reset h = .next h' ∧ h'.loadable = true) ∧
    (∀ rnd, ∃ h', perform (.cycle rnd) h = .next h' ∧ h'.loadable = false) ∧
    (∀ k16, ∃ h', perform (.setKeys k16) h = .next h' ∧ h'.loadable = h.loadable) ∧
    ∃ h', perform .timerTick h = .next h' ∧ h'.loadable = h.loadable

/-- R21, R160, R159: `SetKeys` writes all 16 keys and nothing else; `Reset` gives the reset state whatever went before, the
environment's random input apart (log 4), and makes the core loadable. -/
def Obligations.KeysAndResetAreTheHosts : Prop :=
  (∀ (k16 : BitVec 16) (s : State), (∀ k, keyDown k (setKeys k16 s) = k16.getLsbD k.val) ∧
    { setKeys k16 s with key := s.key } = s) ∧
  ∀ h : Session, ∃ h', perform .reset h = .next h' ∧ h'.loadable = true ∧
    { h'.core with rndInput := State.reset.rndInput, rndCount := State.reset.rndCount } = State.reset

/-- R70, R23: `Cycle(rnd)` always answers; its random byte is used by CXNN and by no other instruction: on a state that fetches
another one (or none) two cycles with different bytes do the same. -/
def Obligations.CycleUsesRandomByteOnlyForRnd : Prop :=
  (∀ (b : Byte) (s : State), ∃ t, cycle b s = .next t ∧ t.rndInput = s.rndInput) ∧
  (∀ (b : Byte) (s : State) (x : VReg) (nn : Byte), s.pc.toNat ≤ 4094 → Claims.fetched s = .rnd x nn →
    ∃ t, cycle b s = .next t ∧ readV x t = b &&& nn) ∧
  ∀ (b c : Byte) (s : State), (4095 ≤ s.pc.toNat ∨ ∀ x nn, Claims.fetched s ≠ .rnd x nn) → cycle b s = cycle c s
end

