-- ==== Sys2Proof/Laws/Decode.lean ====
section
/-! SUPPORT. Fields, formats and masks as arithmetic on the word's number, and the decoder read family by family. -/

namespace Sys2Proof.Laws

/-- The number of two bit strings put side by side. -/
theorem toNat_append_eq {n m : Nat} (a : BitVec n) (b : BitVec m) : (a ++ b).toNat = a.toNat * 2 ^ m + b.toNat := by
  rw [BitVec.toNat_append, ← Nat.shiftLeft_add_eq_or_of_lt b.isLt, Nat.shiftLeft_eq]

/-! ## Fields -/

theorem familyOf_eq (w : Opcode) : familyOf w = w.toNat / 4096 := by
  have := w.isLt
  simp only [familyOf, BitVec.extractLsb'_toNat, Nat.shiftRight_eq_div_pow]
  omega

theorem fieldX_val (w : Opcode) : (fieldX w).val = w.toNat / 256 % 16 := by
  simp [fieldX, Nat.shiftRight_eq_div_pow]

theorem fieldY_val (w : Opcode) : (fieldY w).val = w.toNat / 16 % 16 := by
  simp [fieldY, Nat.shiftRight_eq_div_pow]

theorem fieldN_val (w : Opcode) : (fieldN w).val = w.toNat % 16 := by
  simp [fieldN]

theorem fieldNN_toNat (w : Opcode) : (fieldNN w).toNat = w.toNat % 256 := by
  simp [fieldNN, BitVec.extractLsb'_toNat]

theorem fieldNNN_toNat (w : Opcode) : (fieldNNN w).toNat = w.toNat % 4096 := by
  simp [fieldNNN, BitVec.extractLsb'_toNat]

/-! ## Bytes of a word -/

theorem opcodeOf_toNat (hi lo : Byte) : (opcodeOf hi lo).toNat = hi.toNat * 256 + lo.toNat :=
  toNat_append_eq hi lo

theorem opcodeOf_eq_ofNat (hi lo : Byte) : opcodeOf hi lo = BitVec.ofNat 16 (hi.toNat * 256 + lo.toNat) := by
  apply BitVec.eq_of_toNat_eq
  have := hi.isLt
  have := lo.isLt
  rw [opcodeOf_toNat, BitVec.toNat_ofNat, Nat.mod_eq_of_lt (by omega)]

/-- A word is the pair of its bytes. -/
@[simp] theorem opcodeOf_bytes (w : Opcode) : opcodeOf (highByte w) (lowByte w) = w := by
  apply BitVec.eq_of_toNat_eq
  have := w.isLt
  simp only [opcodeOf_toNat, highByte, lowByte, BitVec.extractLsb'_toNat, Nat.shiftRight_eq_div_pow]
  omega

/-! ## Masks of the opcode map -/

/-- A mask and value of nibbles, split into the three parts the rows use. -/
theorem mask_split (w : Opcode) (a c : BitVec 4) (b : BitVec 8) :
    w &&& (a ++ (b ++ c : BitVec 12)) =
      (w.extractLsb' 12 4 &&& a) ++ ((w.extractLsb' 4 8 &&& b) ++ (w.extractLsb' 0 4 &&& c) : BitVec 12) := by
  conv_lhs => rw [show w = w.extractLsb' 12 4 ++ (w.extractLsb' 4 8 ++ w.extractLsb' 0 4 : BitVec 12) by
    apply BitVec.eq_of_toNat_eq
    have := w.isLt
    simp only [toNat_append_eq, BitVec.extractLsb'_toNat, Nat.shiftRight_eq_div_pow]
    omega]
  rw [BitVec.and_append, BitVec.and_append]

/-- The family alone: mask 0xF000. -/
theorem and_F000_toNat (w : Opcode) : (w &&& 0xF000#16).toNat = w.toNat / 4096 * 4096 := by
  have h : (0xF000#16) = 0xF#4 ++ (0x00#8 ++ 0x0#4 : BitVec 12) := by decide
  have := w.isLt
  rw [h, mask_split, show (0xF#4) = BitVec.allOnes 4 by decide, BitVec.and_allOnes, BitVec.and_zero, BitVec.and_zero]
  simp only [toNat_append_eq, BitVec.extractLsb'_toNat, Nat.shiftRight_eq_div_pow, BitVec.toNat_ofNat]
  omega

/-- The family and the low nibble: mask 0xF00F. -/
theorem and_F00F_toNat (w : Opcode) : (w &&& 0xF00F#16).toNat = w.toNat / 4096 * 4096 + w.toNat % 16 := by
  have h : (0xF00F#16) = 0xF#4 ++ (0x00#8 ++ 0xF#4 : BitVec 12) := by decide
  have := w.isLt
  rw [h, mask_split, show (0xF#4) = BitVec.allOnes 4 by decide, BitVec.and_allOnes, BitVec.and_allOnes, BitVec.and_zero]
  simp only [toNat_append_eq, BitVec.extractLsb'_toNat, Nat.shiftRight_eq_div_pow, BitVec.toNat_ofNat]
  omega

/-- The family and the low byte: mask 0xF0FF. -/
theorem and_F0FF_toNat (w : Opcode) : (w &&& 0xF0FF#16).toNat = w.toNat / 4096 * 4096 + w.toNat % 256 := by
  have h : (0xF0FF#16) = 0xF#4 ++ (0x0F#8 ++ 0xF#4 : BitVec 12) := by decide
  have h' : (0x0F#8) = 0x0#4 ++ 0xF#4 := by decide
  have := w.isLt
  rw [h, mask_split, h', show w.extractLsb' 4 8 = w.extractLsb' 8 4 ++ w.extractLsb' 4 4 by
      apply BitVec.eq_of_toNat_eq
      simp only [toNat_append_eq, BitVec.extractLsb'_toNat, Nat.shiftRight_eq_div_pow]
      omega,
    BitVec.and_append, show (0xF#4) = BitVec.allOnes 4 by decide, BitVec.and_allOnes, BitVec.and_allOnes,
    BitVec.and_allOnes, BitVec.and_zero]
  simp only [toNat_append_eq, BitVec.extractLsb'_toNat, Nat.shiftRight_eq_div_pow, BitVec.toNat_ofNat]
  omega

/-! ## Formats -/

theorem nibble_toNat (r : Fin 16) : (nibble r).toNat = r.val := rfl

theorem encAddr_toNat (f : BitVec 4) (nnn : Addr) : (encAddr f nnn).toNat = f.toNat * 4096 + nnn.toNat :=
  toNat_append_eq f nnn

theorem encXImm_toNat (f : BitVec 4) (x : VReg) (nn : Byte) :
    (encXImm f x nn).toNat = f.toNat * 4096 + x.val * 256 + nn.toNat := by
  simp only [encXImm, toNat_append_eq, nibble_toNat]
  omega

theorem encXY_toNat (f : BitVec 4) (x y : VReg) (k : BitVec 4) :
    (encXY f x y k).toNat = f.toNat * 4096 + x.val * 256 + y.val * 16 + k.toNat := by
  simp only [encXY, toNat_append_eq, nibble_toNat]
  omega

end Sys2Proof.Laws
end

