-- ==== Sys2Proof/Laws/Memory.lean ====
section
/-! SUPPORT. The laws of memory: reading after writing, the canonical form kept by every operation and holding at reset, and runs
of bytes. -/

namespace Sys2Proof.Machine

/-! ## One byte -/

/-- An address below every listed one reads as after reset. -/
theorem lookupCell_of_lt {a : Nat} {cells : List Host.Cell} (h : ∀ c ∈ cells, a < c.1) :
    lookupCell a cells = resetByte a := by
  induction cells with
  | nil => rfl
  | cons c rest ih =>
    have hne : c.1 ≠ a := Nat.ne_of_gt (h c List.mem_cons_self)
    simpa [lookupCell, hne] using ih fun d hd => h d (List.mem_cons_of_mem _ hd)

/-- A byte reads as it was last written, and every other one as before. -/
theorem lookupCell_putCell (a b : Nat) (x : Byte) {cells : List Host.Cell} (h : cells.Pairwise (fun c d => c.1 < d.1)) :
    lookupCell b (putCell a x cells) = if b = a then x else lookupCell b cells := by
  induction cells with
  | nil =>
    by_cases hx : x = resetByte a <;> by_cases hb : b = a
    · subst hb
      simp [putCell, lookupCell, hx]
    · simp [putCell, lookupCell, hx, hb]
    · subst hb
      simp [putCell, lookupCell, hx]
    · simp [putCell, lookupCell, hx, hb, Ne.symm hb]
  | cons c rest ih =>
    obtain ⟨e, y⟩ := c
    obtain ⟨hlt, hrest⟩ := List.pairwise_cons.mp h
    have absent : a ≤ e → lookupCell a rest = resetByte a := fun hae =>
      lookupCell_of_lt fun d hd => Nat.lt_of_le_of_lt hae (hlt d hd)
    have ih := ih hrest
    rcases Nat.lt_trichotomy a e with hae | rfl | hae
    · have hne : e ≠ a := by omega
      by_cases hx : x = resetByte a <;> by_cases hb : b = a
      · subst hb
        simp [putCell, hae, hx, lookupCell, hne, absent (Nat.le_of_lt hae)]
      · simp [putCell, hae, hx, hb]
      · subst hb
        simp [putCell, hae, hx, lookupCell]
      · simp [putCell, hae, hx, lookupCell, hb, Ne.symm hb]
    · by_cases hx : x = resetByte a <;> by_cases hb : b = a
      · subst hb
        simp [putCell, hx, absent (Nat.le_refl _)]
      · simp [putCell, hx, lookupCell, hb, Ne.symm hb]
      · subst hb
        simp [putCell, hx, lookupCell]
      · simp [putCell, hx, lookupCell, hb, Ne.symm hb]
    · have h1 : ¬a < e := by omega
      have h2 : a ≠ e := by omega
      by_cases hb : b = a
      · subst hb
        simp [putCell, h1, h2, lookupCell, ih, Ne.symm h2]
      · simp [putCell, h1, h2, lookupCell, ih, hb]

/-- Every cell after a write is the written one or was there before. -/
theorem mem_putCell {a : Nat} {x : Byte} {cells : List Host.Cell} {c : Host.Cell} (h : c ∈ putCell a x cells) :
    (c = (a, x) ∧ x ≠ resetByte a) ∨ c ∈ cells := by
  induction cells with
  | nil =>
    simp only [putCell] at h
    split at h <;> simp_all
  | cons d rest ih =>
    simp only [putCell] at h
    split at h
    · split at h <;> simp_all
    · split at h
      · split at h <;> simp_all; tauto
      · simp only [List.mem_cons] at h
        rcases h with rfl | h
        · exact .inr List.mem_cons_self
        · exact (ih h).imp id (List.mem_cons_of_mem _)

/-- A write keeps the addresses rising. -/
theorem putCell_pairwise (a : Nat) (x : Byte) {cells : List Host.Cell} (h : cells.Pairwise (fun c d => c.1 < d.1)) :
    (putCell a x cells).Pairwise (fun c d => c.1 < d.1) := by
  induction cells with
  | nil =>
    simp only [putCell]
    split <;> simp
  | cons d rest ih =>
    obtain ⟨hlt, hrest⟩ := List.pairwise_cons.mp h
    simp only [putCell]
    split
    · rename_i had
      split
      · exact h
      · refine List.pairwise_cons.mpr ⟨fun c hc => ?_, h⟩
        rcases List.mem_cons.mp hc with rfl | hc
        · exact had
        · exact Nat.lt_trans had (hlt c hc)
    · split
      · rename_i had
        split
        · exact hrest
        · exact List.pairwise_cons.mpr ⟨fun c hc => had ▸ hlt c hc, hrest⟩
      · refine List.pairwise_cons.mpr ⟨fun c hc => ?_, ih hrest⟩
        rcases mem_putCell hc with ⟨rfl, -⟩ | hc
        · show d.1 < a
          omega
        · exact hlt c hc

/-! ## `MEM` -/

/-- R34: what a write leaves at every address. -/
theorem Memory.byteAt_setByte {m : Memory} (h : m.wf) {a : Nat} (ha : a < 4096) (b : Nat) (x : Byte) :
    (m.setByte a x).byteAt b = if b = a then x else m.byteAt b := by
  simp only [Memory.setByte, Config.memSize, ha, if_true, Memory.byteAt]
  exact lookupCell_putCell a b x h.1

/-- A write keeps the canonical form. -/
theorem Memory.setByte_wf {m : Memory} (h : m.wf) (a : Nat) (x : Byte) : (m.setByte a x).wf := by
  unfold Memory.setByte
  split
  · rename_i ha
    refine ⟨putCell_pairwise a x h.1, fun c hc => ?_⟩
    rcases mem_putCell hc with ⟨rfl, hx⟩ | hc
    · exact ⟨ha, hx⟩
    · exact h.2 c hc
  · exact h

/-- A run of writes keeps the canonical form. -/
theorem Memory.setBytes_wf {m : Memory} (h : m.wf) (a : Nat) (xs : List Byte) : (m.setBytes a xs).wf := by
  induction xs generalizing m a with
  | nil => exact h
  | cons x xs ih => exact ih (m.setByte_wf h a x) (a + 1)

/-- What a run of writes leaves at every address: byte `k` of the list at `a + k`, every other byte as before. -/
theorem Memory.byteAt_setBytes {m : Memory} (h : m.wf) {a : Nat} {xs : List Byte} (ha : a + xs.length ≤ 4096) (b : Nat) :
    (m.setBytes a xs).byteAt b = if a ≤ b ∧ b < a + xs.length then xs.getD (b - a) 0 else m.byteAt b := by
  induction xs generalizing m a with
  | nil =>
    have : ¬(a ≤ b ∧ b < a) := by omega
    simp [Memory.setBytes, this]
  | cons x xs ih =>
    simp only [List.length_cons] at ha
    rw [Memory.setBytes, ih (m.setByte_wf h a x) (by omega), Memory.byteAt_setByte h (by omega)]
    rcases Nat.lt_trichotomy b a with hb | rfl | hb
    · have h1 : ¬(a + 1 ≤ b ∧ b < a + 1 + xs.length) := by omega
      have h2 : ¬(a ≤ b ∧ b < a + (xs.length + 1)) := by omega
      have h3 : b ≠ a := by omega
      simp only [List.length_cons, h1, h2, h3, if_false]
    · have h1 : ¬(b + 1 ≤ b ∧ b < b + 1 + xs.length) := by omega
      simp
    · have h3 : b ≠ a := by omega
      obtain ⟨k, rfl⟩ : ∃ k, b = a + 1 + k := ⟨b - a - 1, by omega⟩
      have e1 : a + 1 + k - (a + 1) = k := by omega
      have e2 : a + 1 + k - a = k + 1 := by omega
      simp only [List.length_cons, e1, e2, List.getD_cons_succ, h3, if_false]
      by_cases hk : k < xs.length
      · rw [if_pos (by omega), if_pos (by omega)]
      · rw [if_neg (by omega), if_neg (by omega)]

/-- The byte at `k` of a run read from memory. -/
theorem Memory.getD_bytesFrom (m : Memory) (a : Nat) {n k : Nat} (h : k < n) (d : Byte) :
    (m.bytesFrom a n).getD k d = m.byteAt (a + k) := by
  simp [Memory.bytesFrom, h]

@[simp] theorem Memory.length_bytesFrom (m : Memory) (a n : Nat) : (m.bytesFrom a n).length = n := by
  simp [Memory.bytesFrom]

/-- Reset memory is in canonical form. -/
theorem reset_mem_wf : State.reset.mem.wf := ⟨List.Pairwise.nil, fun _ h => absurd h (by simp [State.reset])⟩

/-- In canonical form an address outside the memory is not listed. -/
theorem Memory.byteAt_of_ge {m : Memory} (h : m.wf) {a : Nat} (ha : 4096 ≤ a) : m.byteAt a = resetByte a := by
  obtain ⟨cells⟩ := m
  have hb : ∀ c ∈ cells, c.1 ≠ a := fun c hc => Nat.ne_of_lt (Nat.lt_of_lt_of_le (h.2 c hc).1 ha)
  clear h
  show lookupCell a cells = resetByte a
  induction cells with
  | nil => rfl
  | cons c rest ih =>
    simpa [lookupCell, hb c List.mem_cons_self] using ih fun d hd => hb d (List.mem_cons_of_mem _ hd)

/-! ## The bounds check of a run (R35) -/

theorem runFault_eq_none {a n : Nat} : runFault a n = none ↔ n = 0 ∨ a + n - 1 ≤ 4095 := by
  unfold runFault Config.memSize
  split <;> simp <;> omega

theorem runFault_eq_some {a n top : Nat} : runFault a n = some top ↔ n ≠ 0 ∧ 4095 < a + n - 1 ∧ top = a + n - 1 := by
  unfold runFault Config.memSize
  split <;> simp <;> omega

end Sys2Proof.Machine
end

