-- ==== Sys2Proof/Laws/State.lean ====
section
/-! SUPPORT. What each named update leaves in each field of the state, by rfl, so that no later proof unfolds a record
update. -/

namespace Sys2Proof.Machine


/-! ## writeV -/

@[simp] theorem writeV_mem (r : VReg) (x : Byte) (s : State) : (writeV r x s).mem = s.mem := rfl
@[simp] theorem writeV_fb (r : VReg) (x : Byte) (s : State) : (writeV r x s).fb = s.fb := rfl
@[simp] theorem writeV_v (r : VReg) (x : Byte) (s : State) : (writeV r x s).v = s.v.set r x := rfl
@[simp] theorem writeV_i (r : VReg) (x : Byte) (s : State) : (writeV r x s).i = s.i := rfl
@[simp] theorem writeV_pc (r : VReg) (x : Byte) (s : State) : (writeV r x s).pc = s.pc := rfl
@[simp] theorem writeV_sp (r : VReg) (x : Byte) (s : State) : (writeV r x s).sp = s.sp := rfl
@[simp] theorem writeV_stk (r : VReg) (x : Byte) (s : State) : (writeV r x s).stk = s.stk := rfl
@[simp] theorem writeV_dt (r : VReg) (x : Byte) (s : State) : (writeV r x s).dt = s.dt := rfl
@[simp] theorem writeV_st (r : VReg) (x : Byte) (s : State) : (writeV r x s).st = s.st := rfl
@[simp] theorem writeV_key (r : VReg) (x : Byte) (s : State) : (writeV r x s).key = s.key := rfl
@[simp] theorem writeV_report (r : VReg) (x : Byte) (s : State) : (writeV r x s).report = s.report := rfl
@[simp] theorem writeV_rndInput (r : VReg) (x : Byte) (s : State) : (writeV r x s).rndInput = s.rndInput := rfl
@[simp] theorem writeV_rndCount (r : VReg) (x : Byte) (s : State) : (writeV r x s).rndCount = s.rndCount := rfl

/-! ## writeI -/

@[simp] theorem writeI_mem (x : Word) (s : State) : (writeI x s).mem = s.mem := rfl
@[simp] theorem writeI_fb (x : Word) (s : State) : (writeI x s).fb = s.fb := rfl
@[simp] theorem writeI_v (x : Word) (s : State) : (writeI x s).v = s.v := rfl
@[simp] theorem writeI_i (x : Word) (s : State) : (writeI x s).i = x := rfl
@[simp] theorem writeI_pc (x : Word) (s : State) : (writeI x s).pc = s.pc := rfl
@[simp] theorem writeI_sp (x : Word) (s : State) : (writeI x s).sp = s.sp := rfl
@[simp] theorem writeI_stk (x : Word) (s : State) : (writeI x s).stk = s.stk := rfl
@[simp] theorem writeI_dt (x : Word) (s : State) : (writeI x s).dt = s.dt := rfl
@[simp] theorem writeI_st (x : Word) (s : State) : (writeI x s).st = s.st := rfl
@[simp] theorem writeI_key (x : Word) (s : State) : (writeI x s).key = s.key := rfl
@[simp] theorem writeI_report (x : Word) (s : State) : (writeI x s).report = s.report := rfl
@[simp] theorem writeI_rndInput (x : Word) (s : State) : (writeI x s).rndInput = s.rndInput := rfl
@[simp] theorem writeI_rndCount (x : Word) (s : State) : (writeI x s).rndCount = s.rndCount := rfl

/-! ## writeDt -/

@[simp] theorem writeDt_mem (x : Byte) (s : State) : (writeDt x s).mem = s.mem := rfl
@[simp] theorem writeDt_fb (x : Byte) (s : State) : (writeDt x s).fb = s.fb := rfl
@[simp] theorem writeDt_v (x : Byte) (s : State) : (writeDt x s).v = s.v := rfl
@[simp] theorem writeDt_i (x : Byte) (s : State) : (writeDt x s).i = s.i := rfl
@[simp] theorem writeDt_pc (x : Byte) (s : State) : (writeDt x s).pc = s.pc := rfl
@[simp] theorem writeDt_sp (x : Byte) (s : State) : (writeDt x s).sp = s.sp := rfl
@[simp] theorem writeDt_stk (x : Byte) (s : State) : (writeDt x s).stk = s.stk := rfl
@[simp] theorem writeDt_dt (x : Byte) (s : State) : (writeDt x s).dt = x := rfl
@[simp] theorem writeDt_st (x : Byte) (s : State) : (writeDt x s).st = s.st := rfl
@[simp] theorem writeDt_key (x : Byte) (s : State) : (writeDt x s).key = s.key := rfl
@[simp] theorem writeDt_report (x : Byte) (s : State) : (writeDt x s).report = s.report := rfl
@[simp] theorem writeDt_rndInput (x : Byte) (s : State) : (writeDt x s).rndInput = s.rndInput := rfl
@[simp] theorem writeDt_rndCount (x : Byte) (s : State) : (writeDt x s).rndCount = s.rndCount := rfl

/-! ## writeSt -/

@[simp] theorem writeSt_mem (x : Byte) (s : State) : (writeSt x s).mem = s.mem := rfl
@[simp] theorem writeSt_fb (x : Byte) (s : State) : (writeSt x s).fb = s.fb := rfl
@[simp] theorem writeSt_v (x : Byte) (s : State) : (writeSt x s).v = s.v := rfl
@[simp] theorem writeSt_i (x : Byte) (s : State) : (writeSt x s).i = s.i := rfl
@[simp] theorem writeSt_pc (x : Byte) (s : State) : (writeSt x s).pc = s.pc := rfl
@[simp] theorem writeSt_sp (x : Byte) (s : State) : (writeSt x s).sp = s.sp := rfl
@[simp] theorem writeSt_stk (x : Byte) (s : State) : (writeSt x s).stk = s.stk := rfl
@[simp] theorem writeSt_dt (x : Byte) (s : State) : (writeSt x s).dt = s.dt := rfl
@[simp] theorem writeSt_st (x : Byte) (s : State) : (writeSt x s).st = x := rfl
@[simp] theorem writeSt_key (x : Byte) (s : State) : (writeSt x s).key = s.key := rfl
@[simp] theorem writeSt_report (x : Byte) (s : State) : (writeSt x s).report = s.report := rfl
@[simp] theorem writeSt_rndInput (x : Byte) (s : State) : (writeSt x s).rndInput = s.rndInput := rfl
@[simp] theorem writeSt_rndCount (x : Byte) (s : State) : (writeSt x s).rndCount = s.rndCount := rfl

/-! ## jumpTo -/

@[simp] theorem jumpTo_mem (x : Word) (s : State) : (jumpTo x s).mem = s.mem := rfl
@[simp] theorem jumpTo_fb (x : Word) (s : State) : (jumpTo x s).fb = s.fb := rfl
@[simp] theorem jumpTo_v (x : Word) (s : State) : (jumpTo x s).v = s.v := rfl
@[simp] theorem jumpTo_i (x : Word) (s : State) : (jumpTo x s).i = s.i := rfl
@[simp] theorem jumpTo_pc (x : Word) (s : State) : (jumpTo x s).pc = x := rfl
@[simp] theorem jumpTo_sp (x : Word) (s : State) : (jumpTo x s).sp = s.sp := rfl
@[simp] theorem jumpTo_stk (x : Word) (s : State) : (jumpTo x s).stk = s.stk := rfl
@[simp] theorem jumpTo_dt (x : Word) (s : State) : (jumpTo x s).dt = s.dt := rfl
@[simp] theorem jumpTo_st (x : Word) (s : State) : (jumpTo x s).st = s.st := rfl
@[simp] theorem jumpTo_key (x : Word) (s : State) : (jumpTo x s).key = s.key := rfl
@[simp] theorem jumpTo_report (x : Word) (s : State) : (jumpTo x s).report = s.report := rfl
@[simp] theorem jumpTo_rndInput (x : Word) (s : State) : (jumpTo x s).rndInput = s.rndInput := rfl
@[simp] theorem jumpTo_rndCount (x : Word) (s : State) : (jumpTo x s).rndCount = s.rndCount := rfl

/-! ## nextInstr -/

@[simp] theorem nextInstr_mem (s : State) : (nextInstr s).mem = s.mem := rfl
@[simp] theorem nextInstr_fb (s : State) : (nextInstr s).fb = s.fb := rfl
@[simp] theorem nextInstr_v (s : State) : (nextInstr s).v = s.v := rfl
@[simp] theorem nextInstr_i (s : State) : (nextInstr s).i = s.i := rfl
@[simp] theorem nextInstr_pc (s : State) : (nextInstr s).pc = s.pc + 2 := rfl
@[simp] theorem nextInstr_sp (s : State) : (nextInstr s).sp = s.sp := rfl
@[simp] theorem nextInstr_stk (s : State) : (nextInstr s).stk = s.stk := rfl
@[simp] theorem nextInstr_dt (s : State) : (nextInstr s).dt = s.dt := rfl
@[simp] theorem nextInstr_st (s : State) : (nextInstr s).st = s.st := rfl
@[simp] theorem nextInstr_key (s : State) : (nextInstr s).key = s.key := rfl
@[simp] theorem nextInstr_report (s : State) : (nextInstr s).report = s.report := rfl
@[simp] theorem nextInstr_rndInput (s : State) : (nextInstr s).rndInput = s.rndInput := rfl
@[simp] theorem nextInstr_rndCount (s : State) : (nextInstr s).rndCount = s.rndCount := rfl

/-! ## skipIf -/

@[simp] theorem skipIf_mem (c : Bool) (s : State) : (skipIf c s).mem = s.mem := rfl
@[simp] theorem skipIf_fb (c : Bool) (s : State) : (skipIf c s).fb = s.fb := rfl
@[simp] theorem skipIf_v (c : Bool) (s : State) : (skipIf c s).v = s.v := rfl
@[simp] theorem skipIf_i (c : Bool) (s : State) : (skipIf c s).i = s.i := rfl
@[simp] theorem skipIf_pc (c : Bool) (s : State) : (skipIf c s).pc = if c then s.pc + 4 else s.pc + 2 := rfl
@[simp] theorem skipIf_sp (c : Bool) (s : State) : (skipIf c s).sp = s.sp := rfl
@[simp] theorem skipIf_stk (c : Bool) (s : State) : (skipIf c s).stk = s.stk := rfl
@[simp] theorem skipIf_dt (c : Bool) (s : State) : (skipIf c s).dt = s.dt := rfl
@[simp] theorem skipIf_st (c : Bool) (s : State) : (skipIf c s).st = s.st := rfl
@[simp] theorem skipIf_key (c : Bool) (s : State) : (skipIf c s).key = s.key := rfl
@[simp] theorem skipIf_report (c : Bool) (s : State) : (skipIf c s).report = s.report := rfl
@[simp] theorem skipIf_rndInput (c : Bool) (s : State) : (skipIf c s).rndInput = s.rndInput := rfl
@[simp] theorem skipIf_rndCount (c : Bool) (s : State) : (skipIf c s).rndCount = s.rndCount := rfl

/-! ## writeFirstRegs -/

@[simp] theorem writeFirstRegs_mem (xs : List Byte) (s : State) : (writeFirstRegs xs s).mem = s.mem := rfl
@[simp] theorem writeFirstRegs_fb (xs : List Byte) (s : State) : (writeFirstRegs xs s).fb = s.fb := rfl
@[simp] theorem writeFirstRegs_v (xs : List Byte) (s : State) : (writeFirstRegs xs s).v = Vector.ofFn fun k => xs.getD k.val s.v[k] := rfl
@[simp] theorem writeFirstRegs_i (xs : List Byte) (s : State) : (writeFirstRegs xs s).i = s.i := rfl
@[simp] theorem writeFirstRegs_pc (xs : List Byte) (s : State) : (writeFirstRegs xs s).pc = s.pc := rfl
@[simp] theorem writeFirstRegs_sp (xs : List Byte) (s : State) : (writeFirstRegs xs s).sp = s.sp := rfl
@[simp] theorem writeFirstRegs_stk (xs : List Byte) (s : State) : (writeFirstRegs xs s).stk = s.stk := rfl
@[simp] theorem writeFirstRegs_dt (xs : List Byte) (s : State) : (writeFirstRegs xs s).dt = s.dt := rfl
@[simp] theorem writeFirstRegs_st (xs : List Byte) (s : State) : (writeFirstRegs xs s).st = s.st := rfl
@[simp] theorem writeFirstRegs_key (xs : List Byte) (s : State) : (writeFirstRegs xs s).key = s.key := rfl
@[simp] theorem writeFirstRegs_report (xs : List Byte) (s : State) : (writeFirstRegs xs s).report = s.report := rfl
@[simp] theorem writeFirstRegs_rndInput (xs : List Byte) (s : State) : (writeFirstRegs xs s).rndInput = s.rndInput := rfl
@[simp] theorem writeFirstRegs_rndCount (xs : List Byte) (s : State) : (writeFirstRegs xs s).rndCount = s.rndCount := rfl

/-! ## hostReset -/

@[simp] theorem hostReset_mem (s : State) : (hostReset s).mem = State.reset.mem := rfl
@[simp] theorem hostReset_fb (s : State) : (hostReset s).fb = State.reset.fb := rfl
@[simp] theorem hostReset_v (s : State) : (hostReset s).v = State.reset.v := rfl
@[simp] theorem hostReset_i (s : State) : (hostReset s).i = State.reset.i := rfl
@[simp] theorem hostReset_pc (s : State) : (hostReset s).pc = State.reset.pc := rfl
@[simp] theorem hostReset_sp (s : State) : (hostReset s).sp = State.reset.sp := rfl
@[simp] theorem hostReset_stk (s : State) : (hostReset s).stk = State.reset.stk := rfl
@[simp] theorem hostReset_dt (s : State) : (hostReset s).dt = State.reset.dt := rfl
@[simp] theorem hostReset_st (s : State) : (hostReset s).st = State.reset.st := rfl
@[simp] theorem hostReset_key (s : State) : (hostReset s).key = State.reset.key := rfl
@[simp] theorem hostReset_report (s : State) : (hostReset s).report = State.reset.report := rfl
@[simp] theorem hostReset_rndInput (s : State) : (hostReset s).rndInput = s.rndInput := rfl
@[simp] theorem hostReset_rndCount (s : State) : (hostReset s).rndCount = s.rndCount := rfl

/-! ## setKeys -/

@[simp] theorem setKeys_mem (k16 : BitVec 16) (s : State) : (setKeys k16 s).mem = s.mem := rfl
@[simp] theorem setKeys_fb (k16 : BitVec 16) (s : State) : (setKeys k16 s).fb = s.fb := rfl
@[simp] theorem setKeys_v (k16 : BitVec 16) (s : State) : (setKeys k16 s).v = s.v := rfl
@[simp] theorem setKeys_i (k16 : BitVec 16) (s : State) : (setKeys k16 s).i = s.i := rfl
@[simp] theorem setKeys_pc (k16 : BitVec 16) (s : State) : (setKeys k16 s).pc = s.pc := rfl
@[simp] theorem setKeys_sp (k16 : BitVec 16) (s : State) : (setKeys k16 s).sp = s.sp := rfl
@[simp] theorem setKeys_stk (k16 : BitVec 16) (s : State) : (setKeys k16 s).stk = s.stk := rfl
@[simp] theorem setKeys_dt (k16 : BitVec 16) (s : State) : (setKeys k16 s).dt = s.dt := rfl
@[simp] theorem setKeys_st (k16 : BitVec 16) (s : State) : (setKeys k16 s).st = s.st := rfl
@[simp] theorem setKeys_key (k16 : BitVec 16) (s : State) : (setKeys k16 s).key = Vector.ofFn fun k => k16.getLsbD k.val := rfl
@[simp] theorem setKeys_report (k16 : BitVec 16) (s : State) : (setKeys k16 s).report = s.report := rfl
@[simp] theorem setKeys_rndInput (k16 : BitVec 16) (s : State) : (setKeys k16 s).rndInput = s.rndInput := rfl
@[simp] theorem setKeys_rndCount (k16 : BitVec 16) (s : State) : (setKeys k16 s).rndCount = s.rndCount := rfl

/-! ## timerTick -/

@[simp] theorem timerTick_mem (s : State) : (timerTick s).mem = s.mem := rfl
@[simp] theorem timerTick_fb (s : State) : (timerTick s).fb = s.fb := rfl
@[simp] theorem timerTick_v (s : State) : (timerTick s).v = s.v := rfl
@[simp] theorem timerTick_i (s : State) : (timerTick s).i = s.i := rfl
@[simp] theorem timerTick_pc (s : State) : (timerTick s).pc = s.pc := rfl
@[simp] theorem timerTick_sp (s : State) : (timerTick s).sp = s.sp := rfl
@[simp] theorem timerTick_stk (s : State) : (timerTick s).stk = s.stk := rfl
@[simp] theorem timerTick_dt (s : State) : (timerTick s).dt = tickDown s.dt := rfl
@[simp] theorem timerTick_st (s : State) : (timerTick s).st = tickDown s.st := rfl
@[simp] theorem timerTick_key (s : State) : (timerTick s).key = s.key := rfl
@[simp] theorem timerTick_report (s : State) : (timerTick s).report = s.report := rfl
@[simp] theorem timerTick_rndInput (s : State) : (timerTick s).rndInput = s.rndInput := rfl
@[simp] theorem timerTick_rndCount (s : State) : (timerTick s).rndCount = s.rndCount := rfl

end Sys2Proof.Machine
end

