-- ==== Sys2Proof/Laws/Ops.lean ====
section
/-! SUPPORT. One lemma for each shared operation: everything it can do. -/

namespace Sys2Proof.Machine

/-! ## The end of a step -/

/-- `complete` answers a next state, with no report. -/
theorem complete_next {s t : State} : complete s = .next t ↔ t = { s with report := none } := by
  simp only [complete, Host.Outcome.next.injEq]
  exact eq_comm

/-- `raise` answers a next state: the state it is given, with the report. -/
theorem raise_next {f : Fault} {s t : State} : raise f s = .next t ↔ t = { s with report := some f } := by
  simp only [raise, Host.Outcome.next.injEq]
  exact eq_comm

/-! ## Registers -/

/-- R11: what a register write leaves in every register. -/
theorem readV_writeV (r q : VReg) (x : Byte) (s : State) : readV q (writeV r x s) = if q = r then x else readV q s := by
  simp only [readV, writeV_v, Fin.getElem_fin, Vector.getElem_set, Fin.val_inj, eq_comm]

@[simp] theorem readV_writeV_self (r : VReg) (x : Byte) (s : State) : readV r (writeV r x s) = x := by
  simp [readV_writeV]

/-- R90: flag first, result second. -/
theorem readV_writeFlagged (x q : VReg) (r : Flagged) (s : State) :
    readV q (writeFlagged x r s) = if q = x then r.result else if q = vf then flagByte r.flag else readV q s := by
  simp only [writeFlagged, readV_writeV]

/-- A read sees only the V registers. -/
theorem readV_congr {s t : State} (h : t.v = s.v) (r : VReg) : readV r t = readV r s := by
  simp only [readV, h]

/-! A read sees past every update of another field. -/

@[simp] theorem readV_report (r : VReg) (f : Option Fault) (s : State) : readV r { s with report := f } = readV r s := rfl
@[simp] theorem readV_fb (r : VReg) (fb : Framebuffer) (s : State) : readV r { s with fb := fb } = readV r s := rfl
@[simp] theorem readV_mem (r : VReg) (m : Memory) (s : State) : readV r { s with mem := m } = readV r s := rfl
@[simp] theorem readV_jumpTo (r : VReg) (x : Word) (s : State) : readV r (jumpTo x s) = readV r s := rfl
@[simp] theorem readV_nextInstr (r : VReg) (s : State) : readV r (nextInstr s) = readV r s := rfl
@[simp] theorem readV_skipIf (r : VReg) (c : Bool) (s : State) : readV r (skipIf c s) = readV r s := rfl
@[simp] theorem readV_writeI (r : VReg) (x : Word) (s : State) : readV r (writeI x s) = readV r s := rfl
@[simp] theorem readV_writeDt (r : VReg) (x : Byte) (s : State) : readV r (writeDt x s) = readV r s := rfl
@[simp] theorem readV_writeSt (r : VReg) (x : Byte) (s : State) : readV r (writeSt x s) = readV r s := rfl

@[simp] theorem readV_drawRandom (r : VReg) (s : State) : readV r (drawRandom s).2 = readV r s := by
  unfold drawRandom
  split <;> rfl

/-- R121: what a register load leaves in every register. -/
theorem readV_writeFirstRegs (xs : List Byte) (q : VReg) (s : State) :
    readV q (writeFirstRegs xs s) = xs.getD q.val (readV q s) := by
  simp [readV, writeFirstRegs]

@[simp] theorem length_firstRegs (x : VReg) (s : State) : (firstRegs x s).length = x.val + 1 := by
  simp [firstRegs]

/-- R120: byte `k` of a register dump. -/
theorem getD_firstRegs (x k : VReg) (s : State) (h : k ≤ x) (d : Byte) : (firstRegs x s).getD k.val d = readV k s := by
  have hk : k.val < x.val + 1 := Nat.lt_succ_of_le h
  simp [firstRegs, hk]

/-! ## The stack -/

/-- R83: a push succeeds exactly below 16 entries, and leaves the value at the old SP. -/
theorem push_eq_some {x : Word} {s t : State} : push x s = some t ↔
    s.sp.val < 16 ∧ t.sp.val = s.sp.val + 1 ∧ (∀ k : Fin 16, t.stk[k] = if k.val = s.sp.val then x else s.stk[k]) ∧
    { t with sp := s.sp, stk := s.stk } = s := by
  unfold push
  split
  · rename_i h
    constructor
    · rintro ⟨rfl⟩
      refine ⟨h, rfl, fun k => ?_, rfl⟩
      simp only [Fin.getElem_fin, Vector.getElem_set, eq_comm]
    · rintro ⟨-, hsp, hstk, hs⟩
      have h1 : t.stk = s.stk.set s.sp.val x := by
        apply Vector.ext
        intro k hk
        have := hstk ⟨k, hk⟩
        simp only [Fin.getElem_fin] at this
        rw [this, Vector.getElem_set]
        simp only [eq_comm]
      have h2 : t.sp = ⟨s.sp.val + 1, by omega⟩ := Fin.ext hsp
      rw [Option.some.injEq, ← h1, ← h2]
      exact (congrArg (fun u : State => { u with sp := t.sp, stk := t.stk }) hs).symm
  · simp
    omega

/-- R83: a push fails exactly at 16 entries. -/
theorem push_eq_none {x : Word} {s : State} : push x s = none ↔ s.sp.val = 16 := by
  unfold push
  split <;> simp <;> omega

/-- R81: a pop gives the entry below SP and only moves SP. -/
theorem pop_eq_some {s t : State} {x : Word} : pop s = some (x, t) ↔
    ∃ k : Fin 16, s.sp.val = k.val + 1 ∧ x = s.stk[k] ∧ t = { s with sp := k.castSucc } := by
  unfold pop
  split
  · rename_i h
    constructor
    · rintro ⟨rfl, rfl⟩
      exact ⟨⟨s.sp.val - 1, by omega⟩, by simp; omega, rfl, rfl⟩
    · rintro ⟨k, hk, rfl, rfl⟩
      have : s.sp.val - 1 = k.val := by omega
      simp [this, Fin.ext_iff]
  · rename_i h
    constructor
    · simp
    · rintro ⟨k, hk, -⟩
      omega

/-- R81: a pop fails exactly on an empty stack. -/
theorem pop_eq_none {s : State} : pop s = none ↔ s.sp.val = 0 := by
  unfold pop
  split <;> simp <;> omega

/-! ## Memory through a step -/

/-- R35: a run is stored when it fits. -/
theorem storeRun_ok {a : Nat} {xs : List Byte} {s t : State} : storeRun a xs s = .ok t ↔
    (xs.length = 0 ∨ a + xs.length - 1 ≤ 4095) ∧ t = { s with mem := s.mem.setBytes a xs } := by
  unfold storeRun
  split <;> rename_i h
  · have := runFault_eq_some.mp h
    constructor
    · simp
    · rintro ⟨h', -⟩
      omega
  · have := runFault_eq_none.mp h
    rw [Except.ok.injEq, eq_comm]
    exact (and_iff_right this).symm

/-- R35: and otherwise nothing is, and the highest address is reported. -/
theorem storeRun_error {a top : Nat} {xs : List Byte} {s : State} : storeRun a xs s = .error top ↔
    xs.length ≠ 0 ∧ 4095 < a + xs.length - 1 ∧ top = a + xs.length - 1 := by
  unfold storeRun
  rw [← runFault_eq_some]
  split <;> rename_i h <;> simp [h]

/-- R35: a run is read when it fits. -/
theorem loadRun_ok {a n : Nat} {xs : List Byte} {s : State} : loadRun a n s = .ok xs ↔
    (n = 0 ∨ a + n - 1 ≤ 4095) ∧ xs = s.mem.bytesFrom a n := by
  unfold loadRun
  split <;> rename_i h
  · have := runFault_eq_some.mp h
    constructor
    · simp
    · rintro ⟨h', -⟩
      omega
  · have := runFault_eq_none.mp h
    rw [Except.ok.injEq, eq_comm]
    exact (and_iff_right this).symm

/-- R35: and otherwise the highest address is reported. -/
theorem loadRun_error {a n top : Nat} {s : State} : loadRun a n s = .error top ↔
    n ≠ 0 ∧ 4095 < a + n - 1 ∧ top = a + n - 1 := by
  unfold loadRun
  rw [← runFault_eq_some]
  split <;> rename_i h <;> simp [h]

/-- R71, R72: the fetch gives the two bytes at PC, or nothing when PC is 4095 or above. -/
theorem fetch_eq (s : State) : fetch s =
    if s.pc.toNat ≤ 4094 then some (opcodeOf (s.mem.byteAt s.pc.toNat) (s.mem.byteAt (s.pc.toNat + 1))) else none := by
  unfold fetch memRead Config.memSize
  by_cases h : s.pc.toNat ≤ 4094
  · rw [if_pos (by omega), if_pos (by omega), if_pos h]
  · rw [if_neg h]
    by_cases h' : s.pc.toNat < 4096
    · rw [if_neg (show ¬s.pc.toNat + 1 < 4096 by omega)]
      split <;> simp_all
    · rw [if_neg h']

/-! ## The keypad -/

/-- R114: the lowest pressed key. -/
theorem lowestKey_eq_some {s : State} {k : Fin 16} :
    lowestKey s = some k ↔ keyDown k s = true ∧ ∀ j < k, keyDown j s = false := by
  unfold lowestKey
  rw [List.find?_eq_some_iff_getElem]
  constructor
  · rintro ⟨hk, i, hi, rfl, hlt⟩
    refine ⟨hk, fun j hj => ?_⟩
    have := hlt j.val (by simpa [Fin.lt_def] using hj)
    simpa using this
  · rintro ⟨hk, hlt⟩
    refine ⟨hk, k.val, by simp, by simp, fun j hj => ?_⟩
    have := hlt ⟨j, by omega⟩ hj
    simpa using this

/-- R114: no key is pressed. -/
theorem lowestKey_eq_none {s : State} : lowestKey s = none ↔ ∀ k, keyDown k s = false := by
  simp [lowestKey]

/-! ## The random input -/

/-- R23: the byte and what is left of the input. -/
theorem drawRandom_frame (s : State) :
    { (drawRandom s).2 with rndInput := s.rndInput, rndCount := s.rndCount } = s := by
  unfold drawRandom
  split <;> rfl

end Sys2Proof.Machine
end

