-- ==== Sys2Proof/Laws/Draw.lean ====
section
/-! SUPPORT. Drawing (spec/43_display_timers_input.md R110): the loop over rows and columns is a run of plots of distinct pixels, so
every pixel under a set bit is inverted once and a collision is a set bit over a pixel that was on. -/

namespace Sys2Proof.Machine

/-! ## One pixel -/

/-- What inverting a pixel leaves at every pixel. -/
theorem pixel_flip (fb : Framebuffer) (x px : Fin 64) (y py : Fin 32) :
    (fb.flip x y).pixel px py = if px = x ∧ py = y then !fb.pixel px py else fb.pixel px py := by
  simp only [Framebuffer.pixel, Framebuffer.flip, Fin.getElem_fin, Vector.getElem_set]
  by_cases hy : py = y
  · subst hy
    by_cases hx : px = x
    · subst hx
      simp
    · have : ¬(px.val = x.val) := fun h => hx (Fin.ext h)
      simp [hx, this]
  · have : ¬(y.val = py.val) := fun h => hy (Fin.ext h.symm)
    simp [hy, this]

/-- Two framebuffers with the same pixels are equal. -/
theorem framebuffer_ext {fb fb' : Framebuffer} (h : ∀ x y, fb.pixel x y = fb'.pixel x y) : fb = fb' := by
  apply Vector.ext
  intro y hy
  apply BitVec.eq_of_getLsbD_eq
  intro x hx
  exact h ⟨x, hx⟩ ⟨y, hy⟩

@[simp] theorem pixel_clear (x : Fin 64) (y : Fin 32) : Framebuffer.clear.pixel x y = false := by
  simp [Framebuffer.pixel, Framebuffer.clear]

/-! ## A run of plots -/

/-- Plots the pixels of a list in turn. -/
def Canvas.plotAll (ps : List (Fin 64 × Fin 32)) (c : Canvas) : Canvas := ps.foldl (fun c p => c.plot p.1 p.2) c

theorem Canvas.plotAll_append (ps qs : List (Fin 64 × Fin 32)) (c : Canvas) :
    Canvas.plotAll (ps ++ qs) c = Canvas.plotAll qs (Canvas.plotAll ps c) := List.foldl_append

/-- Distinct pixels plotted in turn are each inverted once; there is a hit when one of them was on. -/
theorem Canvas.plotAll_spec {ps : List (Fin 64 × Fin 32)} (h : ps.Nodup) (c : Canvas) :
    (∀ px py, (Canvas.plotAll ps c).fb.pixel px py = if (px, py) ∈ ps then !c.fb.pixel px py else c.fb.pixel px py) ∧
    ((Canvas.plotAll ps c).hit = true ↔ c.hit = true ∨ ∃ p ∈ ps, c.fb.pixel p.1 p.2 = true) := by
  induction ps generalizing c with
  | nil => simp [Canvas.plotAll]
  | cons p ps ih =>
    obtain ⟨hp, hps⟩ := List.nodup_cons.mp h
    have ih := ih hps (c.plot p.1 p.2)
    have hrun : Canvas.plotAll (p :: ps) c = Canvas.plotAll ps (c.plot p.1 p.2) := rfl
    rw [hrun]
    refine ⟨fun px py => ?_, ?_⟩
    · rw [ih.1]
      simp only [Canvas.plot, pixel_flip, List.mem_cons]
      by_cases hq : (px, py) = p
      · subst hq
        simp [hp]
      · have : ¬(px = p.1 ∧ py = p.2) := fun h => hq (Prod.ext h.1 h.2)
        simp [hq, this]
    · rw [ih.2]
      have hkeep : ∀ q ∈ ps, (c.fb.flip p.1 p.2).pixel q.1 q.2 = c.fb.pixel q.1 q.2 := by
        intro q hq
        rw [pixel_flip, if_neg]
        rintro ⟨h1, h2⟩
        exact hp (Prod.ext h1 h2 ▸ hq)
      simp only [Canvas.plot, Bool.or_eq_true, List.mem_cons, exists_eq_or_imp, or_assoc]
      refine or_congr_right (or_congr_right ⟨?_, ?_⟩)
      · rintro ⟨q, hq, hv⟩
        exact ⟨q, hq, hkeep q hq ▸ hv⟩
      · rintro ⟨q, hq, hv⟩
        exact ⟨q, hq, (hkeep q hq).symm ▸ hv⟩

/-! ## The pixels of a sprite -/

/-- The pixels of one row of a sprite, in column order. -/
def rowPixels (x0 : Nat) (y : Fin 32) (sprite : Byte) : List (Fin 64 × Fin 32) :=
  ((List.range 8).filter fun col => sprite.getLsbD (7 - col)).map fun col => (Fin.ofNat 64 (x0 + col), y)

/-- The pixels of a sprite from row `row` on. -/
def spritePixels (x0 y0 : Nat) : Nat → List Byte → List (Fin 64 × Fin 32)
  | _, [] => []
  | row, sprite :: rest => rowPixels x0 (Fin.ofNat 32 (y0 + row)) sprite ++ spritePixels x0 y0 (row + 1) rest

theorem Canvas.drawRow_eq (x0 : Nat) (y : Fin 32) (sprite : Byte) (c : Canvas) :
    c.drawRow x0 y sprite = Canvas.plotAll (rowPixels x0 y sprite) c := by
  rw [Canvas.drawRow, Canvas.plotAll, rowPixels, List.foldl_map, List.foldl_filter]

theorem Canvas.drawRows_eq (x0 y0 row : Nat) (rows : List Byte) (c : Canvas) :
    Canvas.drawRows x0 y0 row rows c = Canvas.plotAll (spritePixels x0 y0 row rows) c := by
  induction rows generalizing row c with
  | nil => rfl
  | cons sprite rest ih => rw [Canvas.drawRows, ih, spritePixels, Canvas.plotAll_append, Canvas.drawRow_eq]

/-- A pixel is under a set bit of the sprite: some row and column of it fall there. -/
theorem mem_spritePixels {x0 y0 row : Nat} {rows : List Byte} {px : Fin 64} {py : Fin 32} :
    (px, py) ∈ spritePixels x0 y0 row rows ↔
      ∃ k < rows.length, ∃ col < 8, (rows.getD k 0).getLsbD (7 - col) = true ∧
        px.val = (x0 + col) % 64 ∧ py.val = (y0 + (row + k)) % 32 := by
  induction rows generalizing row with
  | nil => simp [spritePixels]
  | cons sprite rest ih =>
    rw [spritePixels, List.mem_append, ih, rowPixels, List.mem_map]
    constructor
    · rintro (⟨col, hcol, heq⟩ | ⟨k, hk, col, hcol, hbit, hx, hy⟩)
      · obtain ⟨rfl, rfl⟩ := Prod.mk.inj heq
        rw [List.mem_filter, List.mem_range] at hcol
        exact ⟨0, by simp, col, hcol.1, by simpa using hcol.2, rfl, rfl⟩
      · exact ⟨k + 1, by simpa using hk, col, hcol, by simpa using hbit, hx, by rw [hy]; congr 1; omega⟩
    · rintro ⟨k, hk, col, hcol, hbit, hx, hy⟩
      cases k with
      | zero =>
        left
        refine ⟨col, ?_, Prod.ext (Fin.ext hx.symm) (Fin.ext hy.symm)⟩
        rw [List.mem_filter, List.mem_range]
        exact ⟨hcol, by simpa using hbit⟩
      | succ k =>
        right
        exact ⟨k, by simpa using hk, col, hcol, by simpa using hbit, hx, by rw [hy]; congr 1; omega⟩

/-- Distinct rows and columns of one sprite fall on distinct pixels (at most 32 rows of 8 columns). -/
theorem spritePixels_nodup (x0 y0 row : Nat) {rows : List Byte} (h : rows.length ≤ 32) :
    (spritePixels x0 y0 row rows).Nodup := by
  induction rows generalizing row with
  | nil => exact List.nodup_nil
  | cons sprite rest ih =>
    simp only [List.length_cons] at h
    rw [spritePixels, List.nodup_append]
    refine ⟨?_, ih (row + 1) (by omega), ?_⟩
    · rw [rowPixels, List.nodup_map_iff_inj_on (List.nodup_range.filter _)]
      intro c hc d hd hcd
      rw [List.mem_filter, List.mem_range] at hc hd
      have := congrArg Fin.val (Prod.mk.inj hcd).1
      simp only [Fin.val_ofNat] at this
      omega
    · rintro ⟨px, py⟩ hp ⟨qx, qy⟩ hq heq
      obtain ⟨rfl, rfl⟩ := Prod.mk.inj heq
      obtain ⟨k, hk, -, -, -, -, hy⟩ := mem_spritePixels.mp hq
      rw [rowPixels, List.mem_map] at hp
      obtain ⟨col, -, hcol⟩ := hp
      have := congrArg Fin.val (Prod.mk.inj hcol).2
      simp only [Fin.val_ofNat] at this
      omega

/-- R110: what a draw of at most 32 rows leaves: each pixel under a set bit inverted, a hit when one of them was on. -/
theorem Canvas.drawRows_spec (x0 y0 : Nat) {rows : List Byte} (h : rows.length ≤ 32) (c : Canvas) :
    (∀ px py, (Canvas.drawRows x0 y0 0 rows c).fb.pixel px py =
      if (px, py) ∈ spritePixels x0 y0 0 rows then !c.fb.pixel px py else c.fb.pixel px py) ∧
    ((Canvas.drawRows x0 y0 0 rows c).hit = true ↔
      c.hit = true ∨ ∃ p ∈ spritePixels x0 y0 0 rows, c.fb.pixel p.1 p.2 = true) := by
  rw [Canvas.drawRows_eq]
  exact Canvas.plotAll_spec (spritePixels_nodup x0 y0 0 h) c

end Sys2Proof.Machine
end

