-- ==== Sys2Proof/Laws/PerInstr.lean ====
section
/-! SUPPORT. The family `Encoding`: every instruction's word carries the fixed bits of its row of the opcode map
(spec/30_encoding.md R56), one lemma per constructor. -/

namespace Sys2Proof.Laws

/-- The word of a well-formed instruction matches the instruction's row: `(w & mask) == match`. -/
def Encoding.Statement (i : Instr) : Prop := i.wellFormed = true → i.row.admits (encode i) = true

/-- A word matches a row when the two numbers agree. -/
theorem admits_of_toNat {r : OpcodeRow} {w : Opcode} (h : (w &&& r.mask).toNat = r.value.toNat) : r.admits w = true := by
  simpa [OpcodeRow.admits] using BitVec.eq_of_toNat_eq h

/-- Format ADDR keeps the family. -/
theorem encAddr_admits (f : BitVec 4) (nnn : Addr) {v : Opcode} (hv : v.toNat = f.toNat * 4096) :
    (OpcodeRow.mk 0xF000#16 v).admits (encAddr f nnn) = true := by
  apply admits_of_toNat
  have := nnn.isLt
  simp only [and_F000_toNat, encAddr_toNat, hv]
  omega

/-- Format XIMM keeps the family. -/
theorem encXImm_admits (f : BitVec 4) (x : VReg) (nn : Byte) {v : Opcode} (hv : v.toNat = f.toNat * 4096) :
    (OpcodeRow.mk 0xF000#16 v).admits (encXImm f x nn) = true := by
  apply admits_of_toNat
  have := x.isLt
  have := nn.isLt
  simp only [and_F000_toNat, encXImm_toNat, hv]
  omega

/-- Format XK keeps the family and the low byte. -/
theorem encXK_admits (f : BitVec 4) (x : VReg) (kk : Byte) {v : Opcode} (hv : v.toNat = f.toNat * 4096 + kk.toNat) :
    (OpcodeRow.mk 0xF0FF#16 v).admits (encXImm f x kk) = true := by
  apply admits_of_toNat
  have := x.isLt
  have := kk.isLt
  simp only [and_F0FF_toNat, encXImm_toNat, hv]
  omega

/-- Formats XY and XYN keep the family. -/
theorem encXY_admits (f : BitVec 4) (x y : VReg) (k : BitVec 4) {v : Opcode} (hv : v.toNat = f.toNat * 4096) :
    (OpcodeRow.mk 0xF000#16 v).admits (encXY f x y k) = true := by
  apply admits_of_toNat
  have := x.isLt
  have := y.isLt
  have := k.isLt
  simp only [and_F000_toNat, encXY_toNat, hv]
  omega

/-- Format XY of family 8 keeps the family and the low nibble. -/
theorem encXY_admits_key (f : BitVec 4) (x y : VReg) (k : BitVec 4) {v : Opcode} (hv : v.toNat = f.toNat * 4096 + k.toNat) :
    (OpcodeRow.mk 0xF00F#16 v).admits (encXY f x y k) = true := by
  apply admits_of_toNat
  have := x.isLt
  have := y.isLt
  have := k.isLt
  simp only [and_F00F_toNat, encXY_toNat, hv]
  omega

theorem Encoding.cls : Encoding.Statement .cls := fun _ => by decide
theorem Encoding.ret : Encoding.Statement .ret := fun _ => by decide
theorem Encoding.jp (nnn : Addr) : Encoding.Statement (.jp nnn) := fun _ => encAddr_admits 0x1 nnn rfl
theorem Encoding.call (nnn : Addr) : Encoding.Statement (.call nnn) := fun _ => encAddr_admits 0x2 nnn rfl
theorem Encoding.seImm (x : VReg) (nn : Byte) : Encoding.Statement (.seImm x nn) := fun _ => encXImm_admits 0x3 x nn rfl
theorem Encoding.sneImm (x : VReg) (nn : Byte) : Encoding.Statement (.sneImm x nn) := fun _ => encXImm_admits 0x4 x nn rfl
theorem Encoding.seReg (x y : VReg) : Encoding.Statement (.seReg x y) := fun _ => encXY_admits 0x5 x y 0 rfl
theorem Encoding.ldImm (x : VReg) (nn : Byte) : Encoding.Statement (.ldImm x nn) := fun _ => encXImm_admits 0x6 x nn rfl
theorem Encoding.addImm (x : VReg) (nn : Byte) : Encoding.Statement (.addImm x nn) := fun _ => encXImm_admits 0x7 x nn rfl
theorem Encoding.ldReg (x y : VReg) : Encoding.Statement (.ldReg x y) := fun _ => encXY_admits_key 0x8 x y 0x0 rfl
theorem Encoding.orReg (x y : VReg) : Encoding.Statement (.orReg x y) := fun _ => encXY_admits_key 0x8 x y 0x1 rfl
theorem Encoding.andReg (x y : VReg) : Encoding.Statement (.andReg x y) := fun _ => encXY_admits_key 0x8 x y 0x2 rfl
theorem Encoding.xorReg (x y : VReg) : Encoding.Statement (.xorReg x y) := fun _ => encXY_admits_key 0x8 x y 0x3 rfl
theorem Encoding.addReg (x y : VReg) : Encoding.Statement (.addReg x y) := fun _ => encXY_admits_key 0x8 x y 0x4 rfl
theorem Encoding.subReg (x y : VReg) : Encoding.Statement (.subReg x y) := fun _ => encXY_admits_key 0x8 x y 0x5 rfl
theorem Encoding.shr (x y : VReg) : Encoding.Statement (.shr x y) := fun _ => encXY_admits_key 0x8 x y 0x6 rfl
theorem Encoding.subn (x y : VReg) : Encoding.Statement (.subn x y) := fun _ => encXY_admits_key 0x8 x y 0x7 rfl
theorem Encoding.shl (x y : VReg) : Encoding.Statement (.shl x y) := fun _ => encXY_admits_key 0x8 x y 0xE rfl
theorem Encoding.sneReg (x y : VReg) : Encoding.Statement (.sneReg x y) := fun _ => encXY_admits 0x9 x y 0 rfl
theorem Encoding.ldI (nnn : Addr) : Encoding.Statement (.ldI nnn) := fun _ => encAddr_admits 0xA nnn rfl
theorem Encoding.jpV0 (nnn : Addr) : Encoding.Statement (.jpV0 nnn) := fun _ => encAddr_admits 0xB nnn rfl
theorem Encoding.rnd (x : VReg) (nn : Byte) : Encoding.Statement (.rnd x nn) := fun _ => encXImm_admits 0xC x nn rfl
theorem Encoding.drw (x y : VReg) (n : Fin 16) : Encoding.Statement (.drw x y n) :=
  fun _ => encXY_admits 0xD x y (nibble n) rfl
theorem Encoding.skp (x : VReg) : Encoding.Statement (.skp x) := fun _ => encXK_admits 0xE x 0x9E rfl
theorem Encoding.sknp (x : VReg) : Encoding.Statement (.sknp x) := fun _ => encXK_admits 0xE x 0xA1 rfl
theorem Encoding.ldVxDt (x : VReg) : Encoding.Statement (.ldVxDt x) := fun _ => encXK_admits 0xF x 0x07 rfl
theorem Encoding.ldVxK (x : VReg) : Encoding.Statement (.ldVxK x) := fun _ => encXK_admits 0xF x 0x0A rfl
theorem Encoding.ldDtVx (x : VReg) : Encoding.Statement (.ldDtVx x) := fun _ => encXK_admits 0xF x 0x15 rfl
theorem Encoding.ldStVx (x : VReg) : Encoding.Statement (.ldStVx x) := fun _ => encXK_admits 0xF x 0x18 rfl
theorem Encoding.addI (x : VReg) : Encoding.Statement (.addI x) := fun _ => encXK_admits 0xF x 0x1E rfl
theorem Encoding.ldF (x : VReg) : Encoding.Statement (.ldF x) := fun _ => encXK_admits 0xF x 0x29 rfl
theorem Encoding.ldB (x : VReg) : Encoding.Statement (.ldB x) := fun _ => encXK_admits 0xF x 0x33 rfl
theorem Encoding.dump (x : VReg) : Encoding.Statement (.dump x) := fun _ => encXK_admits 0xF x 0x55 rfl
theorem Encoding.load (x : VReg) : Encoding.Statement (.load x) := fun _ => encXK_admits 0xF x 0x65 rfl

/-- The fallback row has mask 0 and match 0: every word matches it. -/
theorem Encoding.nopUnknown (w : Opcode) : Encoding.Statement (.nopUnknown w) :=
  fun _ => by simp [OpcodeRow.admits, Instr.row]

end Sys2Proof.Laws
end

