-- ==== Sys2Proof/Laws/Step.lean ====
section
/-! SUPPORT. Runs of steps: how the host's run and the strict run of Safety.lean unroll, one step at a time. -/

namespace Sys2Proof.Machine

@[simp] theorem core_run_zero (s : State) : Sys2Proof.core.run 0 s = .next s := rfl

/-- A run whose first step answers a next state is the rest of the run from there. -/
theorem core_run_succ {s t : State} (h : step s = .next t) (k : Nat) :
    Sys2Proof.core.run (k + 1) s = Sys2Proof.core.run k t := by
  have h : Sys2Proof.core.step s = .next t := h
  simp [Host.Core.run, h]

/-- R147: a strict step that goes on is a step that reported nothing. -/
theorem strictStep_next {s t : State} : strictStep s = .next t ↔ step s = .next t ∧ t.report = none := by
  unfold strictStep
  constructor
  · intro h
    split at h
    · split at h
      · cases h
      · rename_i hs _ hr
        cases h
        exact ⟨hs, hr⟩
    · cases h
    · cases h
  · rintro ⟨hs, hr⟩
    rw [hs]
    simp only [hr]

/-- R147: a strict step that stops is a step that reported the condition (or that stopped itself). -/
theorem strictStep_fault {s : State} {f : Fault} :
    strictStep s = .fault f ↔ (∃ t, step s = .next t ∧ t.report = some f) ∨ step s = .fault f := by
  unfold strictStep
  cases step s with
  | next t => cases h : t.report <;> simp [h]
  | fault g => simp
  | refused r => simp

end Sys2Proof.Machine
end

