-- ==== Sys2Proof/Tests/Slice0.lean ====
section
/-! SUPPORT. Tests of the model's own work. Expected results come from spec/: `Tnnx` and `Hn` name the vectors of
spec/95_test_vectors.md, words are spelled from R56 of spec/30_encoding.md. Then the witnesses: for every statement of
Obligations.lean that has hypotheses, states and operands that meet them. -/

open Sys2Proof Sys2Proof.Machine

namespace Sys2Proof.Tests

/-- A state with some registers set. -/
def withV (rs : List (VReg × Byte)) (s : State) : State := rs.foldl (fun s r => writeV r.1 r.2 s) s

/-- A state with some bytes of memory set. -/
def withMem (a : Nat) (xs : List Byte) (s : State) : State := { s with mem := s.mem.setBytes a xs }

/-- What holds of the state after one step on a word. -/
def after (w : Nat) (s : State) (p : State → Bool) : Bool :=
  match step (s.withFetchWord 16 w) with
  | .next t => p t
  | _ => false

/-- Whether a step on a word leaves everything but the report as it was, and what it reports. -/
def onlyReports (w : Nat) (s : State) (f : Fault) : Bool :=
  after w s fun t => t == { s.withFetchWord 16 w with report := some f }

/-! ## Well-formedness: each check refuses an ill-formed term (R57) -/

/-- An unknown word that is the word of an instruction is refused, family by family. -/
theorem test_wellFormed_refuses_known_words :
    [0x00E0#16, 0x05EE#16, 0x1234#16, 0x8126#16, 0x812E#16, 0xE19E#16, 0xF165#16].all
      (fun w => !(Instr.nopUnknown w).wellFormed) = true := by decide

theorem test_wellFormed_accepts_unknown_words :
    [0x0000#16, 0x00FD#16, 0x8128#16, 0x812F#16, 0xE100#16, 0xF1FF#16].all
      (fun w => (Instr.nopUnknown w).wellFormed) = true := by decide

/-! ## Decoding: a word of every constructor, spelled nibble by nibble from R56 -/

/-- Families 0 to 4. -/
theorem test_decode_families_0_to_4 :
    [0b0000_0000_1110_0000#16, 0b0000_0000_1110_1110#16, 0b0001_0010_0011_0100#16, 0b0010_1010_1011_1100#16,
      0b0011_0011_0010_1010#16, 0b0100_1111_0000_0001#16].map decode =
    [.cls, .ret, .jp 0x234, .call 0xABC, .seImm 3 0x2A, .sneImm 15 0x01] := by decide

/-- Families 5 to 7 and 9 to C. -/
theorem test_decode_families_5_7_9_C :
    [0b0101_0001_0010_0000#16, 0b0110_0100_1010_1011#16, 0b0111_0001_0000_0010#16, 0b1001_0100_0101_0000#16,
      0b1010_1111_1111_1111#16, 0b1011_0011_0000_0000#16, 0b1100_0011_0000_1111#16].map decode =
    [.seReg 1 2, .ldImm 4 0xAB, .addImm 1 0x02, .sneReg 4 5, .ldI 0xFFF, .jpV0 0x300, .rnd 3 0x0F] := by decide

/-- Family 8. -/
theorem test_decode_family_8 :
    [0b1000_0001_0010_0000#16, 0b1000_0001_0010_0001#16, 0b1000_0001_0010_0010#16, 0b1000_0001_0010_0011#16,
      0b1000_0001_0010_0100#16, 0b1000_0001_0010_0101#16, 0b1000_0001_0010_0110#16, 0b1000_0001_0010_0111#16,
      0b1000_0001_0010_1110#16].map decode =
    [.ldReg 1 2, .orReg 1 2, .andReg 1 2, .xorReg 1 2, .addReg 1 2, .subReg 1 2, .shr 1 2, .subn 1 2, .shl 1 2] := by decide

/-- Families D and E. -/
theorem test_decode_families_D_E :
    [0b1101_0001_0010_0101#16, 0b1110_0100_1001_1110#16, 0b1110_0100_1010_0001#16].map decode =
    [.drw 1 2 5, .skp 4, .sknp 4] := by decide

/-- Family F. -/
theorem test_decode_family_F :
    [0b1111_0101_0000_0111#16, 0b1111_0101_0000_1010#16, 0b1111_0101_0001_0101#16, 0b1111_0101_0001_1000#16,
      0b1111_0101_0001_1110#16, 0b1111_0101_0010_1001#16, 0b1111_0101_0011_0011#16, 0b1111_0101_0101_0101#16,
      0b1111_0101_0110_0101#16].map decode =
    [.ldVxDt 5, .ldVxK 5, .ldDtVx 5, .ldStVx 5, .addI 5, .ldF 5, .ldB 5, .dump 5, .load 5] := by decide

/-- T75a to T75e: unknown words. T58a, T58b: ignored bits. -/
theorem test_decode_unknown_and_ignored :
    [0x0000#16, 0x8128#16, 0xE100#16, 0xF1FF#16, 0x00FD#16, 0x03E0#16, 0x5127#16].map decode =
    [.nopUnknown 0x0000, .nopUnknown 0x8128, .nopUnknown 0xE100, .nopUnknown 0xF1FF, .nopUnknown 0x00FD, .cls,
      .seReg 1 2] := by decide

/-- The bytes of a word: the first is the more significant one (R36); a list of one byte is refused by name. -/
theorem test_decode_bytes : decodeBytes [0x12, 0x34, 0x56] = .ok (.jp 0x234, [0x56]) ∧
    decodeBytes [0x12] = .error .truncated ∧ decodeTableWord 16 0x1234 = some (.jp 0x234) := by
  refine ⟨by rfl, rfl, by decide⟩

/-! ## The fetch -/

/-- T71a: big-endian. -/
theorem test_fetch_big_endian : after 0x1234 .reset (fun t => t.pc == 0x234) = true := by decide

/-- T71b: an odd PC. -/
theorem test_fetch_odd_pc :
    after 0x6007 { State.reset with pc := 0x201 } (fun t => t.v[0] == 7 && t.pc == 0x203) = true := by decide

/-- T72a: the last address a word can be fetched from. -/
theorem test_fetch_last :
    after 0x6001 { State.reset with pc := 0xFFE } (fun t => t.v[0] == 1 && t.pc == 0x1000 && t.report == none) = true := by decide

/-- T72b, T72d: past it. -/
theorem test_fetch_past_end :
    onlyReports 0x6001 { State.reset with pc := 0xFFF } (.outOfBounds 4095) = true ∧
    onlyReports 0x6001 { State.reset with pc := 0x10FE } (.outOfBounds 0x10FE) = true := by decide

/-! ## Control flow -/

/-- T80a. -/
theorem test_cls :
    after 0x00E0 { withV [(15, 1)] .reset with fb := (State.reset.fb.flip 5 3).flip 63 31 }
      (fun t => t.fb == Vector.replicate 32 0 && t.v[15] == 1 && t.pc == 0x202) = true := by decide

/-- T81b: the sixteenth entry. -/
theorem test_ret :
    after 0x00EE { State.reset with pc := 0x300, sp := 16, stk := State.reset.stk.set 15 0x0ABC }
      (fun t => t.sp == 15 && t.pc == 0xABC && t.report == none) = true := by decide

/-- T81c: an empty stack. -/
theorem test_ret_empty :
    after 0x00EE { State.reset with pc := 0x2A0 }
      (fun t => t.sp == 0 && t.pc == 0x200 && t.report == some (.stackUnderflow 0x2A0)) = true := by decide

/-- T82d. -/
theorem test_jp : after 0x1050 .reset (fun t => t.pc == 0x050 && t.report == none) = true := by decide

/-- T83b: the sixteenth call. -/
theorem test_call :
    after 0x2ABC { State.reset with pc := 0x400, sp := 15 }
      (fun t => t.stk[15] == 0x402 && t.sp == 16 && t.pc == 0xABC) = true := by decide

/-- T83c: the seventeenth. -/
theorem test_call_full :
    onlyReports 0x2ABC { State.reset with pc := 0x400, sp := 16 } (.stackOverflow 0x400) = true := by decide

/-- T84a, T84b. -/
theorem test_seImm :
    after 0x332A { withV [(3, 0x2A)] .reset with pc := 0x300 } (fun t => t.pc == 0x304) = true ∧
    after 0x332A { withV [(3, 0x2B)] .reset with pc := 0x300 } (fun t => t.pc == 0x302) = true := by decide

/-- T85a, T85b. -/
theorem test_sneImm :
    after 0x432A { withV [(3, 0x2A)] .reset with pc := 0x300 } (fun t => t.pc == 0x302) = true ∧
    after 0x4300 { withV [(3, 0x2A)] .reset with pc := 0x300 } (fun t => t.pc == 0x304) = true := by decide

/-- T86a, T86b. -/
theorem test_seReg :
    after 0x5120 (withV [(1, 7), (2, 7)] .reset) (fun t => t.pc == 0x204) = true ∧
    after 0x5120 (withV [(1, 7), (2, 8)] .reset) (fun t => t.pc == 0x202) = true := by decide

/-- T87a, T87b. -/
theorem test_sneReg :
    after 0x9120 (withV [(1, 7), (2, 8)] .reset) (fun t => t.pc == 0x204) = true ∧
    after 0x9120 (withV [(1, 7), (2, 7)] .reset) (fun t => t.pc == 0x202) = true := by decide

/-- T88b: the largest PC. T88c: the register is V0. -/
theorem test_jpV0 :
    after 0xBFFF (withV [(0, 0xFF)] .reset) (fun t => t.pc == 0x10FE && t.report == none) = true ∧
    after 0xB220 (withV [(0, 0x10), (2, 0x80)] .reset) (fun t => t.pc == 0x230) = true := by decide

/-- T75d. -/
theorem test_nopUnknown :
    after 0xF1FF (withV [(1, 9)] .reset)
      (fun t => t == { (withV [(1, 9)] State.reset).withFetchWord 16 0xF1FF with pc := 0x202 }) = true := by decide

/-! ## Arithmetic and logic -/

/-- T91b: VF as a plain destination. -/
theorem test_ldReg : after 0x8F20 (withV [(2, 0x33), (15, 1)] .reset) (fun t => t.v[15] == 0x33) = true := by decide

/-- T92a. -/
theorem test_orReg :
    after 0x8121 (withV [(1, 0xF0), (2, 0x0F), (15, 1)] .reset) (fun t => t.v[1] == 0xFF && t.v[15] == 1) = true := by decide

/-- T93a. -/
theorem test_andReg : after 0x8122 (withV [(1, 0xF3), (2, 0x3C)] .reset) (fun t => t.v[1] == 0x30) = true := by decide

/-- T94a. -/
theorem test_xorReg : after 0x8123 (withV [(1, 0xFF), (2, 0x0F)] .reset) (fun t => t.v[1] == 0xF0) = true := by decide

/-- T95c, T95e: 256 carries, 255 does not. -/
theorem test_addReg :
    after 0x8014 (withV [(0, 0xFF), (1, 1)] .reset) (fun t => t.v[0] == 0 && t.v[15] == 1) = true ∧
    after 0x8014 (withV [(0, 0xFF), (15, 1)] .reset) (fun t => t.v[0] == 0xFF && t.v[15] == 0) = true := by decide

/-- T95g, T95h: VF as destination and as operand. -/
theorem test_addReg_vf :
    after 0x8F14 (withV [(15, 0xF0), (1, 0x20)] .reset) (fun t => t.v[15] == 0x10) = true ∧
    after 0x81F4 (withV [(1, 5), (15, 1)] .reset) (fun t => t.v[1] == 6 && t.v[15] == 0) = true := by decide

/-- T96b, T96c: equal operands give flag 0. -/
theorem test_subReg :
    after 0x8015 (withV [(0, 0x0A), (1, 0x03)] .reset) (fun t => t.v[0] == 7 && t.v[15] == 1) = true ∧
    after 0x8015 (withV [(0, 5), (1, 5), (15, 1)] .reset) (fun t => t.v[0] == 0 && t.v[15] == 0) = true := by decide

/-- T98a, T98b. -/
theorem test_subn :
    after 0x8017 (withV [(0, 0x02), (1, 0x0A)] .reset) (fun t => t.v[0] == 8 && t.v[1] == 0x0A && t.v[15] == 1) = true ∧
    after 0x8017 (withV [(0, 0x0A), (1, 0x02)] .reset) (fun t => t.v[0] == 0xF8 && t.v[15] == 0) = true := by decide

/-- T97a, T97e. -/
theorem test_shr :
    after 0x8236 (withV [(2, 5), (3, 0xF0)] .reset) (fun t => t.v[2] == 2 && t.v[3] == 0xF0 && t.v[15] == 1) = true ∧
    after 0x8F06 (withV [(15, 7)] .reset) (fun t => t.v[15] == 3) = true := by decide

/-- T97f: the operand the other setting of the quirk selects. -/
theorem test_shr_quirk :
    shrFlagged (shiftSource true 2 3 (withV [(2, 0x05), (3, 0xF1)] .reset)) = ⟨0x78, true⟩ := by decide

/-- T99a, T99b. -/
theorem test_shl :
    after 0x823E (withV [(2, 0x81)] .reset) (fun t => t.v[2] == 2 && t.v[15] == 1) = true ∧
    after 0x820E (withV [(2, 0x40)] .reset) (fun t => t.v[2] == 0x80 && t.v[15] == 0) = true := by decide

/-- T100a, with the byte the environment has ready; it is used up. -/
theorem test_rnd :
    after 0xC30F { State.reset with rndInput := [0xB7, 0x11] }
      (fun t => t.v[3] == 7 && t.rndInput == [0x11] && t.pc == 0x202) = true := by decide

/-- T100b: mask 0 gives 0 for every random byte, so for a free one too. -/
theorem test_rnd_free : ∃ t, exec (.rnd 3 0x00) .reset = .next t ∧ readV 3 t = 0 :=
  ⟨_, rfl, by simp [readV, writeV, nextInstr, jumpTo]⟩

/-! ## Immediate loads -/

/-- T130b. -/
theorem test_ldImm : after 0x6F07 .reset (fun t => t.v[15] == 7 && t.pc == 0x202) = true := by decide

/-- T131b, T131c: no carry flag. -/
theorem test_addImm :
    after 0x7102 (withV [(1, 0xFF)] .reset) (fun t => t.v[1] == 1 && t.v[15] == 0) = true ∧
    after 0x7180 (withV [(1, 0x80), (15, 1)] .reset) (fun t => t.v[1] == 0 && t.v[15] == 1) = true := by decide

/-- T132b. -/
theorem test_ldI : after 0xAFFF .reset (fun t => t.i == 0xFFF && t.pc == 0x202) = true := by decide

/-! ## Display, keypad, timers, index, memory -/

/-- T110a: a sprite that wraps to column 0. T110c: partial overlap. -/
theorem test_drw :
    after 0xD011 { withMem 0x300 [0xC0] (withV [(0, 63), (1, 31)] .reset) with i := 0x300 }
      (fun t => t.fb == (State.reset.fb.flip 63 31).flip 0 31 && t.v[15] == 0 && t.pc == 0x202) = true ∧
    after 0xD011 { withMem 0x300 [0xFF] .reset with i := 0x300, fb := State.reset.fb.flip 7 0 }
      (fun t => t.fb[0] == 0x7F && t.v[15] == 1) = true := by decide

/-- T110h: past the end; T110i: the coordinate is the VF of before. -/
theorem test_drw_corners :
    onlyReports 0xD002 { withV [(15, 1)] .reset with i := 0xFFF } (.outOfBounds 0x1000) = true ∧
    after 0xDF11 { withMem 0x300 [0x80] (withV [(15, 5)] .reset) with i := 0x300 }
      (fun t => t.fb == State.reset.fb.flip 5 0 && t.v[15] == 0) = true := by decide

/-- T111c, T112b. -/
theorem test_skp_sknp :
    after 0xE49E { withV [(4, 0x1A)] .reset with pc := 0x220, key := State.reset.key.set 10 true }
      (fun t => t.pc == 0x224) = true ∧
    after 0xE4A1 { withV [(4, 0x0A)] .reset with pc := 0x220 } (fun t => t.pc == 0x224) = true := by decide

/-- T111b, T112a. -/
theorem test_skp_sknp_plain :
    after 0xE49E { withV [(4, 0x0A)] .reset with pc := 0x220 } (fun t => t.pc == 0x222) = true ∧
    after 0xE4A1 { withV [(4, 0x0A)] .reset with pc := 0x220, key := State.reset.key.set 10 true }
      (fun t => t.pc == 0x222) = true := by decide

/-- T114a: a stall. T114c: the lowest key. -/
theorem test_ldVxK :
    after 0xF30A (withV [(3, 0x55)] .reset) (fun t => t == (withV [(3, 0x55)] State.reset).withFetchWord 16 0xF30A) = true ∧
    after 0xF30A { State.reset with key := (State.reset.key.set 9 true).set 7 true }
      (fun t => t.v[3] == 7 && t.pc == 0x202) = true := by decide

/-- T113a, T115a, T116a. -/
theorem test_timers :
    after 0xF507 { State.reset with dt := 0x2C } (fun t => t.v[5] == 0x2C && t.dt == 0x2C) = true ∧
    after 0xF515 (withV [(5, 0x3C)] .reset) (fun t => t.dt == 0x3C && t.st == 0) = true ∧
    after 0xF518 (withV [(5, 0x0A)] .reset) (fun t => t.st == 0x0A && t.dt == 0) = true := by decide

/-- T117a, T117c. -/
theorem test_addI :
    after 0xF11E { withV [(1, 5)] .reset with i := 0xFFE } (fun t => t.i == 3 && t.v[15] == 0) = true ∧
    after 0xF11E { withV [(1, 0xFF)] .reset with i := 0xFFF } (fun t => t.i == 0x0FE) = true := by decide

/-- T118c, T118d. -/
theorem test_ldF :
    after 0xF229 (withV [(2, 0x0F)] .reset) (fun t => t.i == 0x09B) = true ∧
    after 0xF229 (withV [(2, 0x1A)] .reset) (fun t => t.i == 0x082) = true := by decide

/-- T119a (the source's own example), T119g. -/
theorem test_ldB :
    after 0xF033 { withV [(0, 157)] .reset with i := 0x300 }
      (fun t => t.mem.bytesFrom 0x300 3 == [1, 5, 7] && t.i == 0x300) = true ∧
    onlyReports 0xF033 { withMem 0xFFE [0xAA, 0xBB] (withV [(0, 42)] .reset) with i := 0xFFE } (.outOfBounds 0x1000) = true := by
  decide

/-- T120a. -/
theorem test_dump :
    after 0xF255 { withV [(0, 0x11), (1, 0x22), (2, 0x33), (3, 0x44)] .reset with i := 0x400 }
      (fun t => t.mem.bytesFrom 0x3FF 5 == [0, 0x11, 0x22, 0x33, 0] && t.i == 0x400) = true := by decide

/-- T121a, T121c. -/
theorem test_load :
    after 0xF265 { withMem 0x300 [1, 5, 7] (withV [(3, 0x99)] .reset) with i := 0x300 }
      (fun t => t.v.toList.take 4 == [1, 5, 7, 0x99] && t.i == 0x300) = true ∧
    onlyReports 0xFF65 { withV [(0, 0x5A)] .reset with i := 0xFF1 } (.outOfBounds 0x1000) = true := by decide

/-! ## The host's operations -/

/-- H2, H5. -/
theorem test_load_program :
    ((loadProgram [0xAA, 0xBB, 0xCC] .reset).map fun s => s.mem.bytesFrom 0x1FF 5) = some [0, 0xAA, 0xBB, 0xCC, 0] ∧
    loadProgram [] .reset = some .reset := by decide

/-- H6, H7. -/
theorem test_timerTick :
    ((timerTick { State.reset with dt := 3, st := 1 }).dt, (timerTick { State.reset with dt := 3, st := 1 }).st) = (2, 0) ∧
    (timerTick { State.reset with dt := 255 }).dt = 254 ∧ (timerTick .reset).dt = 0 := by decide

/-- H9. -/
theorem test_setKeys :
    keyDown 0 (setKeys 0x0001 .reset) = true ∧ keyDown 15 (setKeys 0x8000 (setKeys 0x0001 .reset)) = true ∧
    keyDown 0 (setKeys 0x8000 (setKeys 0x0001 .reset)) = false := by decide

/-- R28: glyph 7 of the font. -/
theorem test_font : State.reset.mem.bytesFrom 0x073 5 = [0xF0, 0x10, 0x20, 0x40, 0x40] := by decide

/-- R159: after a cycle no program is taken. -/
theorem test_load_after_cycle :
    (match perform (.cycle 0) .start with
      | .next h => (match perform (.load [1]) h with | .refused .loadNotAllowed => true | _ => false)
      | _ => false) = true := by decide

/-! ## Witnesses -/

/-- Each row of the map is met by its match and by the word with every free bit set: the premise of every `Encodes`. -/
theorem witness_Encodes :
    opcodeRows.all (fun r => r.admits r.value && r.admits (r.value ||| ~~~r.mask)) = true := by decide

theorem witness_DecodeInvertsEncode :
    (Instr.drw 15 15 15).wellFormed = true ∧ (Instr.nopUnknown 0xFFFF).wellFormed = true := by decide

/-- A word of a row and a word of none. -/
theorem witness_OpcodeMapRowsSelectInstruction :
    (⟨0xF00F#16, 0x800E#16⟩ ∈ opcodeRows ∧ OpcodeRow.admits ⟨0xF00F#16, 0x800E#16⟩ 0x8FFE = true) ∧
    ∀ r ∈ opcodeRows, r.admits 0x8FFF = false := by decide

theorem witness_StepRunsDecodedInstruction : ({ State.reset with pc := 4094 } : State).pc.toNat ≤ 4094 := by decide

theorem witness_FetchPastEndReportsOutOfBounds : 4095 ≤ ({ State.reset with pc := 4095 } : State).pc.toNat := by decide

/-- Both ends of the stack, and the empty one. -/
theorem witness_RetPopsReturnAddress :
    ({ State.reset with sp := 1 } : State).sp.val = (0 : Fin 16).val + 1 ∧
    ({ State.reset with sp := 16 } : State).sp.val = (15 : Fin 16).val + 1 ∧ State.reset.sp.val = 0 := by decide

theorem witness_CallPushesReturnAddress :
    State.reset.sp.val < 16 ∧ ({ State.reset with sp := 15 } : State).sp.val < 16 ∧
    ({ State.reset with sp := 16 } : State).sp.val = 16 := by decide

theorem witness_ReturnUndoesCall : State.reset.sp.val < 16 ∧ ({ State.reset with sp := 15 } : State).sp.val < 16 := by decide

theorem witness_ImmediateSkipsCompare : readV 15 State.reset = 0 ∧ readV 15 State.reset ≠ 0xFF := by decide

theorem witness_RegisterSkipsCompare :
    readV 1 State.reset = readV 15 State.reset ∧ readV 1 (withV [(1, 0xFF)] .reset) ≠ readV 15 (withV [(1, 0xFF)] .reset) := by
  decide

/-- At the last address a word can be fetched from. -/
theorem witness_UnknownWordOnlyAdvancesPc :
    (withMem 0xFFE [0x8F, 0xFF] { State.reset with pc := 0xFFE }).pc.toNat ≤ 4094 ∧
    (0x8FFF#16).toNat = ((withMem 0xFFE [0x8F, 0xFF] { State.reset with pc := 0xFFE }).mem.byteAt 0xFFE).toNat * 256 +
      ((withMem 0xFFE [0x8F, 0xFF] { State.reset with pc := 0xFFE }).mem.byteAt (0xFFE + 1)).toNat ∧
    ∀ r ∈ opcodeRows, r.admits 0x8FFF = false := by decide

/-- The sums 255 and 256. -/
theorem witness_AddRegAddsWithCarryFlag :
    (14 : VReg) ≠ 15 ∧
    (readV 14 (withV [(14, 0xFF)] .reset)).toNat + (readV 0 (withV [(14, 0xFF)] .reset)).toNat ≤ 255 ∧
    (readV 14 (withV [(14, 0xFF), (0, 1)] .reset)).toNat + (readV 0 (withV [(14, 0xFF), (0, 1)] .reset)).toNat > 255 := by
  decide

/-- Equal operands, and a minuend greater by one, both ways round. -/
theorem witness_SubtractionsCompareStrictly :
    (14 : VReg) ≠ 15 ∧ (readV 14 State.reset).toNat ≤ (readV 0 State.reset).toNat ∧
    (readV 14 (withV [(14, 1)] .reset)).toNat > (readV 0 (withV [(14, 1)] .reset)).toNat ∧
    (readV 0 State.reset).toNat ≤ (readV 14 State.reset).toNat ∧
    (readV 0 (withV [(0, 1)] .reset)).toNat > (readV 14 (withV [(0, 1)] .reset)).toNat := by decide

theorem witness_ShiftsMoveOneBit : (14 : VReg) ≠ 15 := by decide

theorem witness_ShiftQuirkSelectsOperand :
    (3 : VReg) = (if true then 3 else 2) ∧ (2 : VReg) = (if false then 3 else 2) := by decide

theorem witness_RndMasksRandomByte :
    ({ State.reset with rndInput := [0xFF] } : State).rndInput = 0xFF :: [] ∧ (0x0F : Byte).getLsbD 7 = false := by decide

/-- A sprite of 15 rows that ends at 4095, over pixels that are on and over pixels that are off; and an empty one. -/
theorem witness_DrwInvertsSpritePixels :
    Claims.RunFits 15 { State.reset with i := 4081 } ∧ Claims.RunFits 0 { State.reset with i := 4096 } ∧
    (Claims.SpriteSets (withMem 0x300 [0x80] { State.reset with i := 0x300 }) 63 31 1 63 31 ∧
      ({ State.reset with fb := State.reset.fb.flip 63 31 } : State).fb.pixel 63 31 = true) ∧
    (∀ px py, Claims.SpriteSets { State.reset with i := 0x300 } 0 0 0 px py → State.reset.fb.pixel px py = false) ∧
    ¬Claims.SpriteSets { State.reset with i := 0x300 } 0 0 0 0 0 := by
  refine ⟨.inr (by decide), .inl rfl, ⟨⟨0, by decide, 0, by decide, by decide, by decide, by decide⟩, by decide⟩, ?_, ?_⟩
  · rintro px py ⟨row, h, -⟩
    omega
  · rintro ⟨row, h, -⟩
    omega

/-- A sprite of one set bit in the last byte of memory, and the pixel under it. -/
def dotOver (lit : Bool) : State :=
  withMem 0xFFF [0x80] { State.reset with i := 0xFFF, fb := if lit then State.reset.fb.flip 0 0 else State.reset.fb }

/-- The dot falls on the first pixel and on no other. -/
theorem dotOver_sets (lit : Bool) (px : Fin 64) (py : Fin 32) :
    Claims.SpriteSets (dotOver lit) (readV 14 (dotOver lit)).toNat (readV 0 (dotOver lit)).toNat 1 px py ↔
      px = 0 ∧ py = 0 := by
  have hbit : ∀ col < 8, ((dotOver lit).mem.byteAt ((dotOver lit).i.toNat + 0)).getLsbD (7 - col) = decide (col = 0) := by
    cases lit <;> decide
  have hx : (readV 14 (dotOver lit)).toNat = 0 := by cases lit <;> decide
  have hy : (readV 0 (dotOver lit)).toNat = 0 := by cases lit <;> decide
  rw [hx, hy]
  constructor
  · rintro ⟨row, hrow, col, hcol, hset, h1, h2⟩
    obtain rfl : row = 0 := by omega
    rw [hbit col hcol, decide_eq_true_eq] at hset
    subst hset
    exact ⟨Fin.ext h1, Fin.ext h2⟩
  · rintro ⟨rfl, rfl⟩
    exact ⟨0, by decide, 0, by decide, hbit 0 (by decide), rfl, rfl⟩

/-- The dot over a pixel that is off (the first two clauses), and over one that is on (the last). -/
theorem witness_DrawingTwiceRestoresFramebuffer :
    (14 : VReg) ≠ 15 ∧ (0 : VReg) ≠ 15 ∧ (∀ lit, Claims.RunFits 1 (dotOver lit)) ∧
    (∀ px py, Claims.SpriteSets (dotOver false) (readV 14 (dotOver false)).toNat (readV 0 (dotOver false)).toNat 1 px py →
      (dotOver false).fb.pixel px py = false) ∧
    (∃ px py, Claims.SpriteSets (dotOver false) (readV 14 (dotOver false)).toNat (readV 0 (dotOver false)).toNat 1 px py ∧
      (dotOver false).fb.pixel px py = false) ∧
    (∀ px py, Claims.SpriteSets (dotOver true) (readV 14 (dotOver true)).toNat (readV 0 (dotOver true)).toNat 1 px py →
      (dotOver true).fb.pixel px py = true) ∧
    ∃ px py, Claims.SpriteSets (dotOver true) (readV 14 (dotOver true)).toNat (readV 0 (dotOver true)).toNat 1 px py := by
  simp only [dotOver_sets]
  refine ⟨by decide, by decide, fun lit => .inr (by cases lit <;> decide), ?_, ⟨0, 0, ⟨rfl, rfl⟩, by decide⟩, ?_, 0, 0, rfl, rfl⟩
  · rintro px py ⟨rfl, rfl⟩
    decide
  · rintro px py ⟨rfl, rfl⟩
    decide

/-- Each clause one byte past the end. -/
theorem witness_DataAccessPastEndChangesNothing :
    ((15 : Fin 16).val ≠ 0 ∧ 4095 < ({ State.reset with i := 4082 } : State).i.toNat + (15 : Fin 16).val - 1) ∧
    4095 < ({ State.reset with i := 4094 } : State).i.toNat + 2 ∧
    4095 < ({ State.reset with i := 4081 } : State).i.toNat + (15 : VReg).val := by decide

theorem witness_KeySkipsReadKeypad :
    (readV 0 (withV [(0, 0xFF)] .reset)).toNat % 16 = (15 : Fin 16).val ∧
    ({ State.reset with key := State.reset.key.set 15 true } : State).key[15] = true ∧ State.reset.key[15] = false := by decide

/-- The highest key alone, and none. -/
theorem witness_WaitForKeyStallsOrStoresLowest :
    (({ State.reset with key := State.reset.key.set 15 true } : State).key[(15 : Fin 16)] = true ∧
      ∀ j : Fin 16, j < 15 → ({ State.reset with key := State.reset.key.set 15 true } : State).key[j] = false) ∧
    ∀ j : Fin 16, State.reset.key[j] = false := by decide

theorem witness_BcdStoresDecimalDigits :
    State.reset.mem.wf ∧ ({ State.reset with i := 4093 } : State).i.toNat + 2 ≤ 4095 := ⟨reset_mem_wf, by decide⟩

theorem witness_DumpStoresRegisters :
    State.reset.mem.wf ∧ ({ State.reset with i := 4080 } : State).i.toNat + (15 : VReg).val ≤ 4095 :=
  ⟨reset_mem_wf, by decide⟩

theorem witness_LoadReadsRegisters : ({ State.reset with i := 4080 } : State).i.toNat + (15 : VReg).val ≤ 4095 := by decide

theorem witness_LoadUndoesDump :
    State.reset.mem.wf ∧ ({ State.reset with i := 4095 } : State).i.toNat + (0 : VReg).val ≤ 4095 :=
  ⟨reset_mem_wf, by decide⟩

/-- The premises of PcAfterEveryInstruction, ReportsExactlyTheListedConditions, RegistersChangeOnlyAsListed,
FramebufferAndMemoryWriters, IndexRegisterWriters, KeypadOnlyReadByKeyInstructions and
SoundTimerAndFramebufferReaders: an instruction that answers a next state, reads no key, draws nothing and writes no register;
and a register another one does not write. -/
theorem witness_exec_next :
    exec (.jp 0x234) .reset = .next { State.reset with pc := 0x234 } ∧
    (∀ x, Instr.jp 0x234 ≠ .skp x ∧ Instr.jp 0x234 ≠ .sknp x ∧ Instr.jp 0x234 ≠ .ldVxK x) ∧
    (∀ x y n, Instr.jp 0x234 ≠ .drw x y n) ∧ (∀ x, Instr.jp 0x234 ≠ .ldStVx x) ∧ Instr.jp 0x234 ≠ .cls ∧
    (2 : VReg) ∉ Claims.writesV (.ldImm 1 7) := by
  refine ⟨by rfl, ?_, ?_, ?_, ?_, by decide⟩ <;> simp

/-- The premises of StackPointerMovesOnlyByCallAndReturn: an instruction that is neither a call nor a return, and an operation of
the host that is neither a reset nor a step. -/
theorem witness_StackPointerMovesOnlyByCallAndReturn :
    exec (.jp 0x234) .reset = .next { State.reset with pc := 0x234 } ∧ Instr.jp 0x234 ≠ .ret ∧
    (∀ nnn, Instr.jp 0x234 ≠ .call nnn) ∧ perform .timerTick Session.start = .next Session.start ∧
    HostOp.timerTick ≠ .reset ∧ ∀ rnd, HostOp.timerTick ≠ .cycle rnd := by
  refine ⟨by rfl, ?_, ?_, by rfl, ?_, ?_⟩ <;> simp

/-- The premise `step s = .next t` of the same rules, from reset: the empty memory's word 0x0000 is unknown. -/
theorem witness_step_next : step .reset = .next { State.reset with pc := 0x202 } := by rfl

/-- The last address; the first outside, as the last of sixteen; and an address outside as the only one. -/
theorem witness_MemoryReadsAndWritesOneByte :
    State.reset.mem.wf ∧ 4095 ≤ 4095 ∧ 4095 < 4096 ∧
    ({ State.reset with i := 4081 } : State).i.toNat + (15 : VReg).val = 4096 ∧
    ({ State.reset with i := 0xFFFF } : State).i.toNat + (0 : VReg).val = 65535 :=
  ⟨reset_mem_wf, by decide, by decide, by decide, by decide⟩

/-- Writing a byte back to what it was gives a memory that reads alike. -/
theorem witness_CanonicalMemoriesReadingAlikeAreEqual :
    State.reset.mem.wf ∧ ((State.reset.mem.setByte 4095 7).setByte 4095 0).wf ∧
    ∀ a ≤ 4095, State.reset.mem.byteAt a = ((State.reset.mem.setByte 4095 7).setByte 4095 0).byteAt a := by
  refine ⟨reset_mem_wf, Memory.setByte_wf (Memory.setByte_wf reset_mem_wf _ _) _ _, fun a _ => rfl⟩

/-- The store ends at 4095, where the next word ends too. -/
theorem witness_NextFetchSeesStore :
    State.reset.mem.wf ∧ 1 ≤ (1 : VReg).val ∧ ({ State.reset with pc := 4092, i := 4094 } : State).pc.toNat ≤ 4092 ∧
    ({ State.reset with pc := 4092, i := 4094 } : State).i = ({ State.reset with pc := 4092, i := 4094 } : State).pc + 2 ∧
    ({ State.reset with pc := 4092, i := 4094 } : State).i.toNat + (1 : VReg).val ≤ 4095 ∧
    ∃ t, exec (.dump 1) { State.reset with pc := 4092, i := 4094 } = .next t :=
  ⟨reset_mem_wf, by decide, by decide, by decide, by decide, _, rfl⟩

/-- T82b: a jump to its own address. -/
theorem witness_JumpToSelfLeavesStateUnchanged :
    (State.withFetchWord { State.reset with pc := 0x20A } 16 0x120A).ended = true := by decide

/-- A quiet step, a step that reports, a strict run that goes on, and one that stops at its second step. -/
theorem witness_StrictRunStopsAtFirstReport :
    step .reset = .next { State.reset with pc := 0x202 } ∧ ({ State.reset with pc := 0x202 } : State).report = none ∧
    step { State.reset with pc := 4095 } = .next { State.reset with pc := 4095, report := some (.outOfBounds 4095) } ∧
    strictRun 1 .reset = .next { State.reset with pc := 0x202 } ∧
    strictRun 2 { State.reset with pc := 4094 } = .fault (.outOfBounds 4096) := ⟨by rfl, rfl, by rfl, by rfl, by rfl⟩

theorem witness_StepKeepsInvariant :
    ({ State.reset with pc := 0x10FE, i := 0xFFF } : State).i.toNat ≤ 0xFFF ∧
    ({ State.reset with pc := 0x10FE, i := 0xFFF } : State).pc.toNat ≤ 0x10FE ∧ State.reset.mem.wf ∧
    (∀ k : Fin 16, State.reset.stk[k].toNat ≤ 4096) ∧ ∃ t, step { State.reset with pc := 0x10FE, i := 0xFFF } = .next t :=
  ⟨by decide, by decide, reset_mem_wf, by decide, _, rfl⟩

/-- A session after one cycle is reachable. -/
theorem witness_ReachableSessionsMeetInvariant : Reachable ⟨{ State.reset with pc := 0x202 }, false⟩ :=
  .move (.cycle 0) .start (by rfl)

/-- A program that fills memory, one byte more, and a second load. -/
theorem witness_LoadPlacesProgram :
    (Session.start.core.mem.wf ∧ Session.start.loadable = true ∧ (List.replicate 3584 (1 : Byte)).length ≤ 3584) ∧
    3584 < (List.replicate 3585 (1 : Byte)).length ∧ (⟨State.reset, false⟩ : Session).loadable = false := by
  refine ⟨⟨reset_mem_wf, rfl, ?_⟩, ?_, rfl⟩ <;> rw [List.length_replicate]
  decide

/-- A state that fetches `RND V3, 0x0F`, one that fetches another instruction, and one that fetches none. -/
theorem witness_CycleUsesRandomByteOnlyForRnd :
    ((State.reset.withFetchWord 16 0xC30F).pc.toNat ≤ 4094 ∧ Claims.fetched (State.reset.withFetchWord 16 0xC30F) = .rnd 3 0x0F) ∧
    (∀ x nn, Claims.fetched .reset ≠ .rnd x nn) ∧ 4095 ≤ ({ State.reset with pc := 4095 } : State).pc.toNat := by
  refine ⟨by decide, ?_, by decide⟩
  have : Claims.fetched .reset = .nopUnknown 0 := by decide
  simp [this]

/-- A fetch whose instruction copies to a timer. -/
theorem witness_StepMovesTimersOnlyByTheirCopies :
    Claims.fetched (State.reset.withFetchWord 16 0xF515) = .ldDtVx 5 ∧
    ∃ t, step (State.reset.withFetchWord 16 0xF515) = .next t := ⟨by decide, _, rfl⟩

end Sys2Proof.Tests
end

section
/-! PROOFS. The call stack (spec/10_state.md R15, R16): every instruction but CALL and RET commutes with replacing SP and the stack by
any others, so it neither reads nor writes them; CALL and RET move them only through `push` and `pop`. -/

namespace Sys2Proof.Machine

/-! ## An outcome's next state -/

/-- The outcome with its next state, if it has one, changed by `f`. -/
def mapNext (f : State → State) : Host.Outcome State Fault Refusal → Host.Outcome State Fault Refusal
  | .next t => .next (f t)
  | .fault r => .fault r
  | .refused r => .refused r

@[simp] theorem mapNext_next (f : State → State) (t : State) : mapNext f (.next t) = .next (f t) := rfl

/-! ## SP and the stack replaced -/

/-- The state with other contents of SP and the stack. -/
def State.withStack (sp : Fin 17) (stk : Vector Word 16) (s : State) : State := { s with sp := sp, stk := stk }

section
variable (sp : Fin 17) (stk : Vector Word 16) (s : State)

@[simp] theorem State.withStack_sp : (s.withStack sp stk).sp = sp := rfl
@[simp] theorem State.withStack_stk : (s.withStack sp stk).stk = stk := rfl
@[simp] theorem State.withStack_i : (s.withStack sp stk).i = s.i := rfl
@[simp] theorem State.withStack_rndInput : (s.withStack sp stk).rndInput = s.rndInput := rfl
@[simp] theorem State.withStack_self : s.withStack s.sp s.stk = s := rfl

/-! The operations that see another part of the state do not see the stack. -/

@[simp] theorem readV_withStack (r : VReg) : readV r (s.withStack sp stk) = readV r s := rfl
@[simp] theorem firstRegs_withStack (x : VReg) : firstRegs x (s.withStack sp stk) = firstRegs x s := rfl
@[simp] theorem lowestKey_withStack : lowestKey (s.withStack sp stk) = lowestKey s := rfl
@[simp] theorem loadRun_withStack (a n : Nat) : loadRun a n (s.withStack sp stk) = loadRun a n s := rfl

@[simp] theorem storeRun_withStack (a : Nat) (xs : List Byte) :
    storeRun a xs (s.withStack sp stk) = (storeRun a xs s).map (State.withStack sp stk) := by
  unfold storeRun
  cases runFault a xs.length <;> rfl

@[simp] theorem drawRandom_withStack :
    drawRandom (s.withStack sp stk) = ((drawRandom s).1, (drawRandom s).2.withStack sp stk) := by
  unfold drawRandom
  rw [State.withStack_rndInput]
  cases s.rndInput <;> rfl

/-! ## The instructions that branch on an operation's answer -/

theorem execRnd_withStack (x : VReg) (nn : Byte) :
    execRnd x nn (s.withStack sp stk) = mapNext (State.withStack sp stk) (execRnd x nn s) := by
  simp only [execRnd, drawRandom_withStack]
  rfl

theorem execDrw_withStack (x y : VReg) (n : Fin 16) :
    execDrw x y n (s.withStack sp stk) = mapNext (State.withStack sp stk) (execDrw x y n s) := by
  simp only [execDrw, State.withStack_i, loadRun_withStack]
  cases loadRun s.i.toNat n.val s <;> rfl

theorem execLdVxK_withStack (x : VReg) :
    execLdVxK x (s.withStack sp stk) = mapNext (State.withStack sp stk) (execLdVxK x s) := by
  simp only [execLdVxK, lowestKey_withStack]
  cases lowestKey s <;> rfl

theorem execLdB_withStack (x : VReg) :
    execLdB x (s.withStack sp stk) = mapNext (State.withStack sp stk) (execLdB x s) := by
  simp only [execLdB, State.withStack_i, readV_withStack, storeRun_withStack]
  cases storeRun s.i.toNat (bcdDigits (readV x s)) s <;> rfl

theorem execDump_withStack (x : VReg) :
    execDump x (s.withStack sp stk) = mapNext (State.withStack sp stk) (execDump x s) := by
  simp only [execDump, State.withStack_i, firstRegs_withStack, storeRun_withStack]
  cases storeRun s.i.toNat (firstRegs x s) s <;> rfl

theorem execLoad_withStack (x : VReg) :
    execLoad x (s.withStack sp stk) = mapNext (State.withStack sp stk) (execLoad x s) := by
  simp only [execLoad, State.withStack_i, loadRun_withStack]
  cases loadRun s.i.toNat (x.val + 1) s <;> rfl

/-! ## Every instruction but CALL and RET -/

/-- R15: an instruction other than CALL and RET does the same whatever SP and the stack hold, and leaves them. The instructions of the
last case are straight-line updates of other fields. -/
theorem exec_withStack {i : Instr} (hret : i ≠ .ret) (hcall : ∀ nnn, i ≠ .call nnn) :
    exec i (s.withStack sp stk) = mapNext (State.withStack sp stk) (exec i s) := by
  cases i with
  | ret => exact absurd rfl hret
  | call nnn => exact absurd rfl (hcall nnn)
  | rnd x nn => exact execRnd_withStack sp stk s x nn
  | drw x y n => exact execDrw_withStack sp stk s x y n
  | ldVxK x => exact execLdVxK_withStack sp stk s x
  | ldB x => exact execLdB_withStack sp stk s x
  | dump x => exact execDump_withStack sp stk s x
  | load x => exact execLoad_withStack sp stk s x
  | _ => rfl

end

/-- What such an instruction does with one stack it does with every other. -/
theorem exec_next_withStack {i : Instr} {s t : State} {sp : Fin 17} {stk : Vector Word 16} (h : exec i s = .next t)
    (hret : i ≠ .ret) (hcall : ∀ nnn, i ≠ .call nnn) : exec i (s.withStack sp stk) = .next (t.withStack sp stk) := by
  rw [exec_withStack sp stk s hret hcall, h, mapNext_next]

/-- Such an instruction keeps SP and the stack: put back what they held, and the step is the one there was. -/
theorem exec_keeps_stack {i : Instr} {s t : State} (h : exec i s = .next t) (hret : i ≠ .ret) (hcall : ∀ nnn, i ≠ .call nnn) :
    t.sp = s.sp ∧ t.stk = s.stk := by
  have hback := exec_next_withStack (sp := s.sp) (stk := s.stk) h hret hcall
  rw [State.withStack_self, h, Host.Outcome.next.injEq] at hback
  rw [hback]
  simp only [State.withStack_sp, State.withStack_stk, and_self]

/-! ## CALL and RET -/

/-- R83: a call keeps SP and the stack at 16 entries, and below 16 pushes PC + 2. -/
theorem execCall_stack {nnn : Addr} {s t : State} (h : execCall nnn s = .next t) :
    (t.sp = s.sp ∧ t.stk = s.stk) ∨
    (s.sp.val < 16 ∧ t.sp.val = s.sp.val + 1 ∧ ∀ k : Fin 16, t.stk[k] = if k.val = s.sp.val then s.pc + 2 else s.stk[k]) := by
  unfold execCall at h
  cases hp : push (s.pc + 2) s with
  | none =>
    rw [hp] at h
    obtain rfl := raise_next.mp h
    exact .inl ⟨rfl, rfl⟩
  | some u =>
    rw [hp] at h
    obtain rfl := complete_next.mp h
    obtain ⟨hlt, hsp, hstk, -⟩ := push_eq_some.mp hp
    exact .inr ⟨hlt, hsp, hstk⟩

/-- R81: a return keeps SP on an empty stack, and above 0 lowers it by 1; the entries stay as they are. -/
theorem execRet_stack {s t : State} (h : execRet s = .next t) :
    (t.sp = s.sp ∧ t.stk = s.stk) ∨ (0 < s.sp.val ∧ s.sp.val = t.sp.val + 1 ∧ t.stk = s.stk) := by
  unfold execRet at h
  cases hp : pop s with
  | none =>
    rw [hp] at h
    obtain rfl := raise_next.mp h
    exact .inl ⟨rfl, rfl⟩
  | some r =>
    obtain ⟨target, u⟩ := r
    rw [hp] at h
    obtain rfl := complete_next.mp h
    obtain ⟨k, hk, -, rfl⟩ := pop_eq_some.mp hp
    exact .inr ⟨by omega, hk, rfl⟩

/-- R15: what any instruction can do to SP and the stack. -/
theorem exec_stack_cases {i : Instr} {s t : State} (h : exec i s = .next t) :
    (t.sp = s.sp ∧ t.stk = s.stk) ∨
    ((∃ nnn, i = .call nnn) ∧ s.sp.val < 16 ∧ t.sp.val = s.sp.val + 1 ∧
      ∀ k : Fin 16, t.stk[k] = if k.val = s.sp.val then s.pc + 2 else s.stk[k]) ∨
    (i = .ret ∧ 0 < s.sp.val ∧ s.sp.val = t.sp.val + 1 ∧ t.stk = s.stk) := by
  by_cases hret : i = .ret
  · subst hret
    exact (execRet_stack h).imp_right fun hpop => .inr ⟨rfl, hpop⟩
  by_cases hcall : ∃ nnn, i = .call nnn
  · obtain ⟨nnn, rfl⟩ := hcall
    exact (execCall_stack h).imp_right fun hpush => .inl ⟨⟨nnn, rfl⟩, hpush⟩
  · exact .inl (exec_keeps_stack h hret (not_exists.mp hcall))

/-! ## The host's operations -/

/-- R48: a load that is taken writes memory only. -/
theorem loadProgram_eq_some {bytes : List Byte} {s t : State} : loadProgram bytes s = some t ↔
    bytes.length ≤ loadMax ∧ t = { s with mem := s.mem.setBytes Config.progBase bytes } := by
  unfold loadProgram
  split <;> rename_i hfits <;> simp [hfits, eq_comm]

/-- R159: a load is performed once, right after a reset, when the program fits. -/
theorem perform_load_next {bytes : List Byte} {h h' : Session} : perform (.load bytes) h = .next h' ↔
    h.loadable = true ∧ ∃ s, loadProgram bytes h.core = some s ∧ h' = ⟨s, false⟩ := by
  simp only [perform]
  cases h.loadable with
  | false => simp
  | true => cases loadProgram bytes h.core <;> simp [eq_comm]

/-- R15: no operation of the host but a reset and a step changes SP or the stack. -/
theorem perform_keeps_stack {op : HostOp} {h h' : Session} (hop : perform op h = .next h') (hreset : op ≠ .reset)
    (hcycle : ∀ rnd, op ≠ .cycle rnd) : h'.core.sp = h.core.sp ∧ h'.core.stk = h.core.stk := by
  cases op with
  | reset => exact absurd rfl hreset
  | cycle rnd => exact absurd rfl (hcycle rnd)
  | load bytes =>
    obtain ⟨-, s, hload, rfl⟩ := perform_load_next.mp hop
    obtain ⟨-, rfl⟩ := loadProgram_eq_some.mp hload
    exact ⟨rfl, rfl⟩
  | setKeys k16 =>
    obtain rfl := Host.Outcome.next.inj hop
    exact ⟨rfl, rfl⟩
  | timerTick =>
    obtain rfl := Host.Outcome.next.inj hop
    exact ⟨rfl, rfl⟩

/-- Settles O44: the cases of `exec_stack_cases`, the blindness of `exec_next_withStack`, and the host's frame. -/
theorem stackPointerMovesOnlyByCallAndReturn : Obligations.StackPointerMovesOnlyByCallAndReturn :=
  ⟨fun s => Nat.le_of_lt_succ s.sp.isLt, rfl, fun _ _ _ => exec_stack_cases,
    fun _ _ _ _ _ => exec_next_withStack, fun _ _ _ => perform_keeps_stack⟩

end Sys2Proof.Machine
end

section
/-! PROOFS. Memory one byte at a time (spec/20_memory.md R33, R34): what a read and a write do on each side of address 4095, and the
report of the register load and the register dump whose run leaves the memory. -/

namespace Sys2Proof.Machine

/-! ## One byte inside and outside the memory -/

section
variable {a : Nat} {s : State}

/-- R33: inside the memory a read gives the byte. -/
theorem memRead_of_le (ha : a ≤ 4095) : memRead a s = some (s.mem.byteAt a) :=
  if_pos (Nat.lt_succ_of_le ha)

/-- R33: outside it there is no byte to read. -/
theorem memRead_of_gt (ha : 4095 < a) : memRead a s = none :=
  if_neg (Nat.not_lt.mpr ha)

/-- R34: inside the memory a write sets one byte of memory. -/
theorem memWrite_of_le (ha : a ≤ 4095) (x : Byte) : memWrite a x s = some { s with mem := s.mem.setByte a x } :=
  if_pos (Nat.lt_succ_of_le ha)

/-- R34: outside it nothing is written. -/
theorem memWrite_of_gt (ha : 4095 < a) (x : Byte) : memWrite a x s = none :=
  if_neg (Nat.not_lt.mpr ha)

/-- R34: what a write inside the memory leaves: the byte at its address, every other byte and the rest of the state as they were. -/
theorem memWrite_spec (hm : s.mem.wf) (ha : a ≤ 4095) (x : Byte) : ∃ t, memWrite a x s = some t ∧ { t with mem := s.mem } = s ∧
    (∀ b, t.mem.byteAt b = if b = a then x else s.mem.byteAt b) ∧ t.mem.wf :=
  ⟨_, memWrite_of_le ha x, rfl, fun b => Memory.byteAt_setByte hm (Nat.lt_succ_of_le ha) b x, Memory.setByte_wf hm a x⟩

end

/-! ## The report of a run that leaves the memory (R35, R142) -/

section
variable {x : VReg} {s : State} (h : 4095 < s.i.toNat + x.val)
include h

/-- A register load past the end of memory reports its highest address and does nothing else. -/
theorem exec_load_of_gt : exec (.load x) s = raise (.outOfBounds (s.i.toNat + x.val)) s := by
  have hrun : loadRun s.i.toNat (x.val + 1) s = .error (s.i.toNat + x.val) :=
    loadRun_error.mpr ⟨Nat.succ_ne_zero _, h, rfl⟩
  show execLoad x s = _
  simp only [execLoad, hrun]

/-- A register dump past the end of memory reports its highest address and does nothing else. -/
theorem exec_dump_of_gt : exec (.dump x) s = raise (.outOfBounds (s.i.toNat + x.val)) s := by
  have hrun : storeRun s.i.toNat (firstRegs x s) s = .error (s.i.toNat + x.val) := by
    rw [storeRun_error, length_firstRegs]
    exact ⟨Nat.succ_ne_zero _, h, rfl⟩
  show execDump x s = _
  simp only [execDump, hrun]

end

/-- Settles O48: a read and a write on each side of 4095, and the load and the dump that end at the address outside. -/
theorem memoryReadsAndWritesOneByte : Obligations.MemoryReadsAndWritesOneByte := by
  intro a s hm
  refine ⟨fun ha => ⟨memRead_of_le ha, memWrite_spec hm ha⟩, fun ha => ⟨memRead_of_gt ha, memWrite_of_gt ha, ?_⟩⟩
  rintro x rfl -
  exact ⟨⟨_, exec_load_of_gt ha, rfl⟩, ⟨_, exec_dump_of_gt ha, rfl⟩⟩

end Sys2Proof.Machine
end

section
/-! PROOFS. One `Cycle` (spec/40_cycle_dispatch.md): what the fetch makes of a step (R70 to R72), a word of no row of the opcode map
(R75), and the two timers through a step (R76). -/

/-! ## The decoder against the rows of the opcode map (spec/30_encoding.md R56) -/

namespace Sys2Proof.Laws

section
variable {w : Opcode} {v : Opcode}

/-- A row of a family without a secondary key admits the family's words. -/
theorem admits_of_family (hv : v.toNat = familyOf w * 4096) : (OpcodeRow.mk 0xF000#16 v).admits w = true := by
  apply admits_of_toNat
  rw [and_F000_toNat, hv, familyOf_eq]

/-- A row keyed on the low nibble admits the family's words with that nibble. -/
theorem admits_of_family_nibble (hv : v.toNat = familyOf w * 4096 + (fieldN w).val) :
    (OpcodeRow.mk 0xF00F#16 v).admits w = true := by
  apply admits_of_toNat
  rw [and_F00F_toNat, hv, familyOf_eq, fieldN_val]

/-- A row keyed on the low byte admits the family's words with that byte. -/
theorem admits_of_family_byte (hv : v.toNat = familyOf w * 4096 + (fieldNN w).toNat) :
    (OpcodeRow.mk 0xF0FF#16 v).admits w = true := by
  apply admits_of_toNat
  rw [and_F0FF_toNat, hv, familyOf_eq, fieldNN_toNat]

end

/-- The fallback row admits every word. -/
theorem nopUnknown_row_admits (u w : Opcode) : (Instr.nopUnknown u).row.admits w = true :=
  beq_iff_eq.mpr BitVec.and_zero

theorem decode0_row_admits {w : Opcode} (hf : familyOf w = 0x0) : (decode0 w).row.admits w = true := by
  unfold decode0
  split
  case h_3 => exact nopUnknown_row_admits w w
  all_goals rename_i hkey; exact admits_of_family_byte (by rw [hf, hkey]; rfl)

theorem decode8_row_admits {w : Opcode} (hf : familyOf w = 0x8) : (decode8 w).row.admits w = true := by
  unfold decode8
  split
  case h_10 => exact nopUnknown_row_admits w w
  all_goals rename_i hkey; exact admits_of_family_nibble (by rw [hf, hkey]; rfl)

theorem decodeE_row_admits {w : Opcode} (hf : familyOf w = 0xE) : (decodeE w).row.admits w = true := by
  unfold decodeE
  split
  case h_3 => exact nopUnknown_row_admits w w
  all_goals rename_i hkey; exact admits_of_family_byte (by rw [hf, hkey]; rfl)

theorem decodeF_row_admits {w : Opcode} (hf : familyOf w = 0xF) : (decodeF w).row.admits w = true := by
  unfold decodeF
  split
  case h_10 => exact nopUnknown_row_admits w w
  all_goals rename_i hkey; exact admits_of_family_byte (by rw [hf, hkey]; rfl)

/-- R56: a word matches the row of the instruction it decodes to. -/
theorem decode_row_admits (w : Opcode) : (decode w).row.admits w = true := by
  unfold decode
  split
  case h_1 hf => exact decode0_row_admits hf
  case h_9 hf => exact decode8_row_admits hf
  case h_15 hf => exact decodeE_row_admits hf
  case h_16 =>
    have hf : familyOf w = 0xF := by
      have hlt : familyOf w < 16 := (w.extractLsb' 12 4).isLt
      simp only [imp_false] at *
      omega
    exact decodeF_row_admits hf
  all_goals rename_i hf; exact admits_of_family (by rw [hf]; rfl)

/-- Every instruction but the fallback stands in a row of R56. -/
theorem row_mem_opcodeRows {i : Instr} (h : ∀ u, i ≠ .nopUnknown u) : i.row ∈ opcodeRows := by
  cases i with
  | nopUnknown u => exact absurd rfl (h u)
  | _ => simp [opcodeRows, Instr.row]

/-- An unknown instruction carries the word it was decoded from (log 29). -/
theorem eq_of_decode_eq_nopUnknown {w u : Opcode} (h : decode w = .nopUnknown u) : u = w := by
  unfold decode decode0 decode8 decodeE decodeF at h
  split at h
  case h_1 | h_9 | h_15 | h_16 =>
    split at h <;> cases h
    rfl
  all_goals cases h

/-- R57, R75: a word that matches no row of R56 decodes to the fallback. -/
theorem decode_of_no_row {w : Opcode} (h : ∀ r ∈ opcodeRows, r.admits w = false) : decode w = .nopUnknown w := by
  by_cases hu : ∃ u, decode w = .nopUnknown u
  · obtain ⟨u, hu⟩ := hu
    rwa [eq_of_decode_eq_nopUnknown hu] at hu
  · have hno := h _ (row_mem_opcodeRows (not_exists.mp hu))
    rw [decode_row_admits] at hno
    cases hno

end Sys2Proof.Laws

namespace Sys2Proof.Machine

open Sys2Proof.Laws

/-! ## What the fetch makes of a step -/

/-- R70, R71: with a word to fetch, a step is the rule of the instruction at PC. -/
theorem step_of_le {s : State} (h : s.pc.toNat ≤ 4094) : step s = exec (Claims.fetched s) s := by
  simp only [step, fetch_eq, if_pos h, opcodeOf_eq_ofNat, Claims.fetched]

/-- R72: without one, it reports PC and does nothing else. -/
theorem step_of_gt {s : State} (h : 4094 < s.pc.toNat) : step s = raise (.outOfBounds s.pc.toNat) s := by
  simp only [step, fetch_eq, if_neg (Nat.not_le.mpr h)]

/-- The instruction at PC is the decoding of the word whose number the two bytes there give. -/
theorem fetched_eq_decode {w : Opcode} {s : State}
    (hw : w.toNat = (s.mem.byteAt s.pc.toNat).toNat * 256 + (s.mem.byteAt (s.pc.toNat + 1)).toNat) :
    Claims.fetched s = decode w := by
  rw [Claims.fetched, ← hw, BitVec.ofNat_toNat, BitVec.setWidth_eq]

/-! ## A word of no row (R75) -/

/-- R75: the fallback moves PC on by 2 and reports nothing. -/
theorem exec_nopUnknown (w : Opcode) (s : State) :
    exec (.nopUnknown w) s = .next { s with pc := s.pc + 2, report := none } := rfl

/-- Settles O18: such a word decodes to the fallback, which is what the step then runs. -/
theorem unknownWordOnlyAdvancesPc : Obligations.UnknownWordOnlyAdvancesPc := by
  refine ⟨exec_nopUnknown, fun w s hpc hw hrows => ?_⟩
  rw [step_of_le hpc, fetched_eq_decode hw, decode_of_no_row hrows, exec_nopUnknown]

/-! ## The timers through an instruction (R76) -/

/-- The next state of the outcome, if it has one, has the timers of `s`. -/
def KeepsTimers (s : State) : Host.Outcome State Fault Refusal → Prop
  | .next t => t.dt = s.dt ∧ t.st = s.st
  | .fault _ | .refused _ => True

@[simp] theorem keepsTimers_complete {s t : State} : KeepsTimers s (complete t) ↔ t.dt = s.dt ∧ t.st = s.st := Iff.rfl
@[simp] theorem keepsTimers_raise {f : Fault} {s t : State} : KeepsTimers s (raise f t) ↔ t.dt = s.dt ∧ t.st = s.st := Iff.rfl

section
variable {s t : State}

theorem push_keeps_timers {x : Word} (h : push x s = some t) : t.dt = s.dt ∧ t.st = s.st := by
  obtain ⟨-, -, -, hframe⟩ := push_eq_some.mp h
  have hdt := congrArg State.dt hframe
  have hst := congrArg State.st hframe
  exact ⟨hdt, hst⟩

theorem pop_keeps_timers {x : Word} (h : pop s = some (x, t)) : t.dt = s.dt ∧ t.st = s.st := by
  obtain ⟨k, -, -, rfl⟩ := pop_eq_some.mp h
  exact ⟨rfl, rfl⟩

theorem storeRun_keeps_timers {a : Nat} {xs : List Byte} (h : storeRun a xs s = .ok t) : t.dt = s.dt ∧ t.st = s.st := by
  obtain ⟨-, rfl⟩ := storeRun_ok.mp h
  exact ⟨rfl, rfl⟩

theorem drawRandom_keeps_timers (s : State) : (drawRandom s).2.dt = s.dt ∧ (drawRandom s).2.st = s.st := by
  have hdt := congrArg State.dt (drawRandom_frame s)
  have hst := congrArg State.st (drawRandom_frame s)
  exact ⟨hdt, hst⟩

end

/-! The instructions that branch on an operation's answer. -/

section
variable (x y : VReg) (s : State)

theorem execRet_keepsTimers : KeepsTimers s (execRet s) := by
  unfold execRet
  cases hp : pop s with
  | none => simp
  | some r => simp [pop_keeps_timers hp]

theorem execCall_keepsTimers (nnn : Addr) : KeepsTimers s (execCall nnn s) := by
  unfold execCall
  cases hp : push (s.pc + 2) s with
  | none => simp
  | some u => simp [push_keeps_timers hp]

theorem execDrw_keepsTimers (n : Fin 16) : KeepsTimers s (execDrw x y n s) := by
  unfold execDrw
  cases loadRun s.i.toNat n.val s <;> simp

theorem execLdVxK_keepsTimers : KeepsTimers s (execLdVxK x s) := by
  unfold execLdVxK
  cases lowestKey s <;> simp

theorem execLdB_keepsTimers : KeepsTimers s (execLdB x s) := by
  unfold execLdB
  cases hrun : storeRun s.i.toNat (bcdDigits (readV x s)) s with
  | error top => simp
  | ok u => simp [storeRun_keeps_timers hrun]

theorem execDump_keepsTimers : KeepsTimers s (execDump x s) := by
  unfold execDump
  cases hrun : storeRun s.i.toNat (firstRegs x s) s with
  | error top => simp
  | ok u => simp [storeRun_keeps_timers hrun]

theorem execLoad_keepsTimers : KeepsTimers s (execLoad x s) := by
  unfold execLoad
  cases loadRun s.i.toNat (x.val + 1) s <;> simp

end

/-- R76: an instruction other than FX15 and FX18 keeps both timers. The instructions of the last case are straight-line updates of
other fields. -/
theorem exec_keepsTimers {i : Instr} (s : State) (hdt : ∀ x, i ≠ .ldDtVx x) (hst : ∀ x, i ≠ .ldStVx x) :
    KeepsTimers s (exec i s) := by
  cases i with
  | ldDtVx x => exact absurd rfl (hdt x)
  | ldStVx x => exact absurd rfl (hst x)
  | ret => exact execRet_keepsTimers s
  | call nnn => exact execCall_keepsTimers s nnn
  | rnd x nn => exact drawRandom_keeps_timers s
  | drw x y n => exact execDrw_keepsTimers x y s n
  | ldVxK x => exact execLdVxK_keepsTimers x s
  | ldB x => exact execLdB_keepsTimers x s
  | dump x => exact execDump_keepsTimers x s
  | load x => exact execLoad_keepsTimers x s
  | _ => exact ⟨rfl, rfl⟩

/-- R76, R115, R116: what any instruction can do to the timers. -/
theorem exec_timer_cases {i : Instr} {s t : State} (h : exec i s = .next t) :
    (t.dt = s.dt ∨ ∃ x, i = .ldDtVx x ∧ t.dt = readV x s) ∧ (t.st = s.st ∨ ∃ x, i = .ldStVx x ∧ t.st = readV x s) := by
  by_cases hdt : ∃ x, i = .ldDtVx x
  · obtain ⟨x, rfl⟩ := hdt
    obtain rfl := complete_next.mp h
    exact ⟨.inr ⟨x, rfl, rfl⟩, .inl rfl⟩
  by_cases hst : ∃ x, i = .ldStVx x
  · obtain ⟨x, rfl⟩ := hst
    obtain rfl := complete_next.mp h
    exact ⟨.inl rfl, .inr ⟨x, rfl, rfl⟩⟩
  · have hkeeps := exec_keepsTimers s (not_exists.mp hdt) (not_exists.mp hst)
    rw [h] at hkeeps
    obtain ⟨hd, hs⟩ := hkeeps
    exact ⟨.inl hd, .inl hs⟩

/-- Settles O45: the cases of `exec_timer_cases` for the fetched instruction, and a failed fetch, which keeps the state. -/
theorem stepMovesTimersOnlyByTheirCopies : Obligations.StepMovesTimersOnlyByTheirCopies := by
  intro s t h
  by_cases hpc : s.pc.toNat ≤ 4094
  · rw [step_of_le hpc] at h
    obtain ⟨hdt, hst⟩ := exec_timer_cases h
    exact ⟨hdt.imp_right fun hcopy => ⟨hpc, hcopy⟩, hst.imp_right fun hcopy => ⟨hpc, hcopy⟩⟩
  · rw [step_of_gt (Nat.not_le.mp hpc)] at h
    obtain rfl := raise_next.mp h
    exact ⟨.inl rfl, .inl rfl⟩

end Sys2Proof.Machine
end

section
/-! PROOFS. Control flow (spec/41_control_flow.md): the clear of the display (R80), the jump (R82) and the skips on an immediate (R84,
R85), each with the words that decode to it. -/

/-! ## The fields and rows of the decoder as the statements spell them (spec/30_encoding.md R51, R54 to R56) -/

namespace Sys2Proof.Laws

section
variable (w : Opcode)

theorem fieldX_eq : fieldX w = Claims.X w := Fin.ext (fieldX_val w)

theorem fieldNN_eq : fieldNN w = Claims.NN w := BitVec.eq_of_toNat_eq (fieldNN_toNat w)

theorem fieldNNN_eq : fieldNNN w = Claims.NNN w := BitVec.eq_of_toNat_eq (fieldNNN_toNat w)

end

section
variable {v : Opcode} {i : Opcode → Instr} (f : Nat)

/-- A row with mask 0xF000 encodes what the decoder makes of its family. -/
theorem encodes_of_family (hv : v.toNat / 4096 = f) (h : ∀ w, familyOf w = f → decode w = i w) :
    Claims.Encodes 0xF000#16 v i := by
  rintro w rfl
  rw [and_F000_toNat] at hv
  exact h w (by rw [familyOf_eq]; omega)

/-- A row with mask 0xF0FF encodes what the decoder makes of its family and low byte. -/
theorem encodes_of_family_byte (k : Nat) (hv : v.toNat / 4096 = f) (hk : v.toNat % 256 = k)
    (h : ∀ w, familyOf w = f → (fieldNN w).toNat = k → decode w = i w) : Claims.Encodes 0xF0FF#16 v i := by
  rintro w rfl
  rw [and_F0FF_toNat] at hv hk
  exact h w (by rw [familyOf_eq]; omega) (by rw [fieldNN_toNat]; omega)

end

theorem encodes_cls : Claims.Encodes 0xF0FF#16 0x00E0#16 (fun _ => .cls) :=
  encodes_of_family_byte 0x0 0xE0 rfl rfl fun w hf hk => by simp only [decode, hf, decode0, hk]

theorem encodes_jp : Claims.Encodes 0xF000#16 0x1000#16 (fun w => .jp (Claims.NNN w)) :=
  encodes_of_family 0x1 rfl fun w hf => by simp only [decode, hf, fieldNNN_eq]

theorem encodes_seImm : Claims.Encodes 0xF000#16 0x3000#16 (fun w => .seImm (Claims.X w) (Claims.NN w)) :=
  encodes_of_family 0x3 rfl fun w hf => by simp only [decode, hf, fieldX_eq, fieldNN_eq]

theorem encodes_sneImm : Claims.Encodes 0xF000#16 0x4000#16 (fun w => .sneImm (Claims.X w) (Claims.NN w)) :=
  encodes_of_family 0x4 rfl fun w hf => by simp only [decode, hf, fieldX_eq, fieldNN_eq]

end Sys2Proof.Laws

namespace Sys2Proof.Machine

open Sys2Proof.Laws

/-! ## What the instructions leave -/

section
variable (nnn : Addr) (x : VReg) (nn : Byte) (s : State)

theorem zextAddr_toNat : (zextAddr nnn).toNat = nnn.toNat := BitVec.toNat_setWidth_of_le (by decide)

/-- R80: the clear writes the framebuffer and moves PC on by 2. -/
theorem exec_cls : exec .cls s = .next { s with fb := Framebuffer.clear, pc := s.pc + 2, report := none } := rfl

/-- R82: the jump writes PC alone. -/
theorem exec_jp : exec (.jp nnn) s = .next { s with pc := zextAddr nnn, report := none } := rfl

/-- R84: the skip on equality. -/
theorem exec_seImm : exec (.seImm x nn) s = complete (skipIf (readV x s == nn) s) := rfl

/-- R85: the skip on difference. -/
theorem exec_sneImm : exec (.sneImm x nn) s = complete (skipIf (readV x s != nn) s) := rfl

/-- R74: a skip writes PC alone, by 4 where its condition holds and by 2 where it fails; `skip` and `stay` are what the instruction
calls these two cases. -/
theorem complete_skipIf_spec {c : Bool} {skip stay : Prop} (hskip : skip → c = true) (hstay : stay → c = false) :
    ∃ t, complete (skipIf c s) = .next t ∧ t.report = none ∧ Claims.SameButPc s t ∧
      (skip → t.pc = s.pc + 4) ∧ (stay → t.pc = s.pc + 2) := by
  refine ⟨_, rfl, rfl, rfl, fun h => ?_, fun h => ?_⟩
  · simp [hskip h]
  · simp [hstay h]

end

/-! ## The statements -/

/-- Settles O10: `exec_cls` on the one field it writes, every pixel of which is off. -/
theorem clsClearsFramebuffer : Obligations.ClsClearsFramebuffer :=
  ⟨encodes_cls, fun s => ⟨_, exec_cls s, ⟨rfl, rfl⟩, pixel_clear, rfl⟩⟩

/-- Settles O12: `exec_jp`, whose target has the operand's number. -/
theorem jpSetsPcToOperand : Obligations.JpSetsPcToOperand :=
  ⟨encodes_jp, fun nnn s => ⟨_, exec_jp nnn s, rfl, zextAddr_toNat nnn, rfl⟩⟩

/-- Settles O16: the two cases of a skip, for the test on equality and for the test on difference. -/
theorem immediateSkipsCompare : Obligations.ImmediateSkipsCompare := by
  refine ⟨encodes_seImm, encodes_sneImm, fun x nn s => ⟨?_, ?_⟩⟩
  · rw [exec_seImm]
    exact complete_skipIf_spec s beq_iff_eq.mpr beq_eq_false_iff_ne.mpr
  · rw [exec_sneImm]
    exact complete_skipIf_spec s bne_iff_ne.mpr bne_eq_false_iff_eq.mpr

end Sys2Proof.Machine
end

section
/-! PROOFS. Arithmetic and logic (spec/42_arith_logic.md): the register copy (R91), with the words that decode to it. -/

/-! ## The words with a key in the low nibble (spec/30_encoding.md R51, R54 to R56) -/

namespace Sys2Proof.Laws

theorem fieldY_eq (w : Opcode) : fieldY w = Claims.Y w := Fin.ext (fieldY_val w)

/-- A row with mask 0xF00F encodes what the decoder makes of its family and low nibble. -/
theorem encodes_of_family_nibble {v : Opcode} {i : Opcode → Instr} (f k : Nat) (hv : v.toNat / 4096 = f)
    (hk : v.toNat % 16 = k) (h : ∀ w, familyOf w = f → (fieldN w).val = k → decode w = i w) :
    Claims.Encodes 0xF00F#16 v i := by
  rintro w rfl
  rw [and_F00F_toNat] at hv hk
  exact h w (by rw [familyOf_eq]; omega) (by rw [fieldN_val]; omega)

theorem encodes_ldReg : Claims.Encodes 0xF00F#16 0x8000#16 (fun w => .ldReg (Claims.X w) (Claims.Y w)) :=
  encodes_of_family_nibble 0x8 0x0 rfl rfl fun w hf hk => by simp only [decode, hf, decode8, hk, fieldX_eq, fieldY_eq]

end Sys2Proof.Laws

namespace Sys2Proof.Machine

open Sys2Proof.Laws

/-! ## What a write of one register leaves -/

/-- R91: the copy writes one register and moves PC on by 2. -/
theorem exec_ldReg (x y : VReg) (s : State) : exec (.ldReg x y) s = complete (nextInstr (writeV x (readV y s) s)) := rfl

/-- R74: an instruction whose one result goes to `V[x]` advances with the result there, and the other registers and the state
outside V and PC are kept. -/
theorem complete_writeV_spec (x : VReg) (b : Byte) (s : State) :
    ∃ t, complete (nextInstr (writeV x b s)) = .next t ∧ Claims.Advances s t ∧
      readV x t = b ∧ Claims.KeepsVBut [x] s t ∧ Claims.SameButVPc s t := by
  refine ⟨_, rfl, ⟨rfl, rfl⟩, readV_writeV_self x b s, fun r hr => ?_, rfl⟩
  calc readV r (writeV x b s) = if r = x then b else readV r s := readV_writeV x r b s
    _ = readV r s := if_neg (List.ne_of_not_mem_cons hr)

/-! ## The statement -/

/-- Settles O19: the copy is a write of one register, `complete_writeV_spec` with the source's value. -/
theorem ldRegCopiesRegister : Obligations.LdRegCopiesRegister :=
  ⟨encodes_ldReg, fun x y s => exec_ldReg x y s ▸ complete_writeV_spec x (readV y s) s⟩

end Sys2Proof.Machine
end

section
/-! PROOFS. Display and timers (spec/43_display_timers_input.md): what one draw does (R110) and what a second one undoes (S3), and
the timer copies (R113, R115, R116), with the words that decode to these. -/

namespace Sys2Proof.Laws

theorem encodes_ldVxDt : Claims.Encodes 0xF0FF#16 0xF007#16 (fun w => .ldVxDt (Claims.X w)) :=
  encodes_of_family_byte 0xF 0x07 rfl rfl fun w hf hk => by simp only [decode, hf, decodeF, hk, fieldX_eq]

theorem encodes_ldDtVx : Claims.Encodes 0xF0FF#16 0xF015#16 (fun w => .ldDtVx (Claims.X w)) :=
  encodes_of_family_byte 0xF 0x15 rfl rfl fun w hf hk => by simp only [decode, hf, decodeF, hk, fieldX_eq]

theorem encodes_ldStVx : Claims.Encodes 0xF0FF#16 0xF018#16 (fun w => .ldStVx (Claims.X w)) :=
  encodes_of_family_byte 0xF 0x18 rfl rfl fun w hf hk => by simp only [decode, hf, decodeF, hk, fieldX_eq]

end Sys2Proof.Laws

namespace Sys2Proof.Machine

open Sys2Proof.Laws

/-! ## One draw (R110) -/

section
variable (x y : VReg) (n : Fin 16) (s : State)

/-- The canvas the draw leaves when its sprite lies inside memory. -/
def drawnCanvas : Canvas :=
  Canvas.drawRows ((readV x s).toNat % 64) ((readV y s).toNat % 32) 0 (s.mem.bytesFrom s.i.toNat n.val) ⟨s.fb, false⟩

/-- The sprite of the draw has a set bit that falls on the pixel. -/
def UnderSprite (px : Fin 64) (py : Fin 32) : Prop :=
  Claims.SpriteSets s (readV x s).toNat (readV y s).toNat n.val px py

/-- R35, R110: a sprite inside memory is drawn; the draw writes the framebuffer, VF and PC. -/
theorem exec_drw_of_runFits (h : Claims.RunFits n.val s) : exec (.drw x y n) s =
    complete (nextInstr (writeV vf (flagByte (drawnCanvas x y n s).hit) { s with fb := (drawnCanvas x y n s).fb })) := by
  have hrun : loadRun s.i.toNat n.val s = .ok (s.mem.bytesFrom s.i.toNat n.val) := loadRun_ok.mpr ⟨h, rfl⟩
  show execDrw x y n s = _
  simp only [execDrw, hrun, drawnCanvas]

/-- The pixels the draw plots are those under its sprite. -/
theorem mem_spritePixels_iff_underSprite {px : Fin 64} {py : Fin 32} :
    (px, py) ∈ spritePixels ((readV x s).toNat % 64) ((readV y s).toNat % 32) 0 (s.mem.bytesFrom s.i.toNat n.val) ↔
      UnderSprite x y n s px py := by
  rw [mem_spritePixels, Memory.length_bytesFrom, UnderSprite, Claims.SpriteSets]
  refine exists_congr fun k => and_congr_right fun hk => ?_
  rw [Memory.getD_bytesFrom s.mem s.i.toNat hk, Nat.zero_add]

/-- Each pixel under the sprite is inverted and no other; there is a hit when one of them was on. -/
theorem drawnCanvas_spec :
    (∀ px py, (UnderSprite x y n s px py → (drawnCanvas x y n s).fb.pixel px py = !s.fb.pixel px py) ∧
      (¬UnderSprite x y n s px py → (drawnCanvas x y n s).fb.pixel px py = s.fb.pixel px py)) ∧
    ((drawnCanvas x y n s).hit = true ↔ ∃ px py, UnderSprite x y n s px py ∧ s.fb.pixel px py = true) := by
  have hlen : (s.mem.bytesFrom s.i.toNat n.val).length ≤ 32 := by
    rw [Memory.length_bytesFrom]
    omega
  obtain ⟨hpixel, hhit⟩ :=
    Canvas.drawRows_spec ((readV x s).toNat % 64) ((readV y s).toNat % 32) hlen ⟨s.fb, false⟩
  have hmem {px : Fin 64} {py : Fin 32} := mem_spritePixels_iff_underSprite x y n s (px := px) (py := py)
  refine ⟨fun px py => ⟨fun hset => ?_, fun hset => ?_⟩, ?_⟩
  · rw [drawnCanvas, hpixel, if_pos (hmem.mpr hset)]
  · rw [drawnCanvas, hpixel, if_neg (mt hmem.mp hset)]
  · simp [drawnCanvas, hhit, hmem]

end

/-- What a draw of a sprite inside memory does to `s`, `t` being what it leaves. -/
structure Draws (x y : VReg) (n : Fin 16) (s t : State) : Prop where
  /-- Every pixel under the sprite is inverted. -/
  pixel_of_under : ∀ px py, UnderSprite x y n s px py → t.fb.pixel px py = !s.fb.pixel px py
  /-- Every other pixel is kept. -/
  pixel_of_not_under : ∀ px py, ¬UnderSprite x y n s px py → t.fb.pixel px py = s.fb.pixel px py
  /-- VF is 1 when a pixel under the sprite was on. -/
  vf_of_hit : (∃ px py, UnderSprite x y n s px py ∧ s.fb.pixel px py = true) → readV vf t = 1
  /-- VF is 0 when all of them were off. -/
  vf_of_no_hit : (∀ px py, UnderSprite x y n s px py → s.fb.pixel px py = false) → readV vf t = 0
  /-- The other registers are kept. -/
  keeps_v : Claims.KeepsVBut [vf] s t
  /-- The step ends normally, two bytes on. -/
  advances : Claims.Advances s t
  /-- The rest of the state is kept. -/
  frame : { t with fb := s.fb, v := s.v, pc := s.pc, report := s.report } = s

/-- R110: the instruction does this. -/
theorem exec_drw_draws (x y : VReg) (n : Fin 16) (s : State) (h : Claims.RunFits n.val s) :
    ∃ t, exec (.drw x y n) s = .next t ∧ Draws x y n s t := by
  obtain ⟨hpixel, hhit⟩ := drawnCanvas_spec x y n s
  obtain ⟨t, hwrite, hadv, hvf, hkeeps, hsame⟩ :=
    complete_writeV_spec vf (flagByte (drawnCanvas x y n s).hit) { s with fb := (drawnCanvas x y n s).fb }
  have hfb : t.fb = (drawnCanvas x y n s).fb := (congrArg State.fb hsame :)
  refine ⟨t, (exec_drw_of_runFits x y n s h).trans hwrite, ?_⟩
  constructor
  case pixel_of_under => exact fun px py => hfb ▸ (hpixel px py).1
  case pixel_of_not_under => exact fun px py => hfb ▸ (hpixel px py).2
  case vf_of_hit =>
    intro hon
    rw [hvf, hhit.mpr hon]
    rfl
  case vf_of_no_hit =>
    intro hoff
    have hmiss : (drawnCanvas x y n s).hit = false := by
      rw [Bool.eq_false_iff, Ne, hhit]
      rintro ⟨px, py, hset, hon⟩
      exact Bool.false_ne_true ((hoff px py hset).symm.trans hon)
    rw [hvf, hmiss]
    rfl
  case keeps_v => exact hkeeps
  case advances => exact hadv
  case frame => exact congrArg (fun q : State => { q with fb := s.fb }) hsame

/-! ## A second draw of the same sprite (S3) -/

section
variable {x y : VReg} {n : Fin 16} {s t u : State}

theorem Draws.mem_eq (h : Draws x y n s t) : t.mem = s.mem := (congrArg State.mem h.frame :)

theorem Draws.i_eq (h : Draws x y n s t) : t.i = s.i := (congrArg State.i h.frame :)

theorem Draws.readV_eq (h : Draws x y n s t) {r : VReg} (hr : r ≠ vf) : readV r t = readV r s :=
  h.keeps_v r (by simpa using hr)

/-- A draw keeps the sprite's fit inside memory. -/
theorem Draws.runFits (h : Draws x y n s t) (hfit : Claims.RunFits n.val s) : Claims.RunFits n.val t := by
  rwa [Claims.RunFits, h.i_eq]

section
variable (h : Draws x y n s t) (hx : x ≠ vf) (hy : y ≠ vf)
include h hx hy

/-- With coordinates in registers other than VF, the sprite falls on the same pixels after a draw. -/
theorem Draws.underSprite_iff {px : Fin 64} {py : Fin 32} : UnderSprite x y n t px py ↔ UnderSprite x y n s px py := by
  simp only [UnderSprite, Claims.SpriteSets, h.mem_eq, h.i_eq, h.readV_eq hx, h.readV_eq hy]

variable (h' : Draws x y n t u)
include h'

/-- S3: a pixel under the sprite is inverted twice, any other never. -/
theorem Draws.fb_twice : u.fb = s.fb := by
  refine framebuffer_ext fun px py => ?_
  by_cases hset : UnderSprite x y n s px py
  · rw [h'.pixel_of_under px py ((h.underSprite_iff hx hy).mpr hset), h.pixel_of_under px py hset, Bool.not_not]
  · rw [h'.pixel_of_not_under px py (mt (h.underSprite_iff hx hy).mp hset), h.pixel_of_not_under px py hset]

/-- S3: the second draw hits a pixel that was off at first. -/
theorem Draws.vf_twice_of_off (hoff : ∃ px py, UnderSprite x y n s px py ∧ s.fb.pixel px py = false) : readV vf u = 1 := by
  obtain ⟨px, py, hset, hpixel⟩ := hoff
  exact h'.vf_of_hit ⟨px, py, (h.underSprite_iff hx hy).mpr hset, by rw [h.pixel_of_under px py hset, hpixel, Bool.not_false]⟩

/-- S3: with all of them on at first, it hits none. -/
theorem Draws.vf_twice_of_on (hon : ∀ px py, UnderSprite x y n s px py → s.fb.pixel px py = true) : readV vf u = 0 := by
  refine h'.vf_of_no_hit fun px py hset => ?_
  have hset := (h.underSprite_iff hx hy).mp hset
  rw [h.pixel_of_under px py hset, hon px py hset, Bool.not_true]

end

end

/-- Settles O29: two draws as `exec_drw_draws` gives them, the second over the pixels the first has inverted. -/
theorem drawingTwiceRestoresFramebuffer : Obligations.DrawingTwiceRestoresFramebuffer := by
  intro x y n s hx hy hfit
  obtain ⟨t, hst, h⟩ := exec_drw_draws x y n s hfit
  obtain ⟨u, htu, h'⟩ := exec_drw_draws x y n t (h.runFits hfit)
  exact ⟨t, u, hst, htu, h.fb_twice hx hy h', h.vf_of_no_hit, h.vf_twice_of_off hx hy h', h.vf_twice_of_on hx hy h'⟩

/-! ## The timer copies (R113, R115, R116) -/

section
variable (x : VReg) (s : State)

/-- R113: DT goes to a register. -/
theorem exec_ldVxDt : exec (.ldVxDt x) s = complete (nextInstr (writeV x s.dt s)) := rfl

/-- R115: a register goes to DT. -/
theorem exec_ldDtVx : exec (.ldDtVx x) s = .next { s with dt := readV x s, pc := s.pc + 2, report := none } := rfl

/-- R116: a register goes to ST. -/
theorem exec_ldStVx : exec (.ldStVx x) s = .next { s with st := readV x s, pc := s.pc + 2, report := none } := rfl

end

/-- Settles O32: a write of one register, `complete_writeV_spec` with DT, and the two copies that write one timer each. -/
theorem timerCopiesMoveByte : Obligations.TimerCopiesMoveByte := by
  refine ⟨encodes_ldVxDt, encodes_ldDtVx, encodes_ldStVx, fun x s => ⟨?_, ?_, ?_⟩⟩
  · rw [exec_ldVxDt]
    exact complete_writeV_spec x s.dt s
  · exact ⟨_, exec_ldDtVx x s, ⟨rfl, rfl⟩, rfl, rfl⟩
  · exact ⟨_, exec_ldStVx x s, ⟨rfl, rfl⟩, rfl, rfl⟩

end Sys2Proof.Machine
end

section
/-! PROOFS. The instruction word (spec/30_encoding.md): decoding an encoded instruction and encoding a decoded word, the rows of the
opcode map, the operand fields and the unknown words. -/

namespace Sys2Proof.Laws

/-! ## The fields of an encoded word (R51, R52) -/

section
variable (f : BitVec 4) (x y : VReg) (k : BitVec 4) (nn : Byte) (nnn : Addr)

@[simp] theorem familyOf_encAddr : familyOf (encAddr f nnn) = f.toNat := by
  rw [familyOf_eq, encAddr_toNat]
  omega

@[simp] theorem fieldNNN_encAddr : fieldNNN (encAddr f nnn) = nnn := by
  apply BitVec.eq_of_toNat_eq
  rw [fieldNNN_toNat, encAddr_toNat]
  omega

@[simp] theorem familyOf_encXImm : familyOf (encXImm f x nn) = f.toNat := by
  rw [familyOf_eq, encXImm_toNat]
  omega

@[simp] theorem fieldX_encXImm : fieldX (encXImm f x nn) = x := by
  apply Fin.ext
  rw [fieldX_val, encXImm_toNat]
  omega

@[simp] theorem fieldNN_encXImm : fieldNN (encXImm f x nn) = nn := by
  apply BitVec.eq_of_toNat_eq
  rw [fieldNN_toNat, encXImm_toNat]
  omega

@[simp] theorem familyOf_encXY : familyOf (encXY f x y k) = f.toNat := by
  rw [familyOf_eq, encXY_toNat]
  omega

@[simp] theorem fieldX_encXY : fieldX (encXY f x y k) = x := by
  apply Fin.ext
  rw [fieldX_val, encXY_toNat]
  omega

@[simp] theorem fieldY_encXY : fieldY (encXY f x y k) = y := by
  apply Fin.ext
  rw [fieldY_val, encXY_toNat]
  omega

@[simp] theorem fieldN_encXY : fieldN (encXY f x y k) = k.toFin := by
  apply Fin.ext
  rw [fieldN_val, encXY_toNat]
  show _ = k.toNat
  omega

end

/-! ## The unknown words (R57) -/

section
variable {w u : Opcode}

theorem familyOf_lt (w : Opcode) : familyOf w < 16 := (w.extractLsb' 12 4).isLt

/-- R57's table: the families with a secondary key, and in each the keys that no row has. -/
theorem unknownWord_iff : unknownWord w = true ↔
    (familyOf w = 0x0 ∧ (fieldNN w).toNat ∉ [0xE0, 0xEE]) ∨
    (familyOf w = 0x8 ∧ (fieldN w).val ∈ [0x8, 0x9, 0xA, 0xB, 0xC, 0xD, 0xF]) ∨
    (familyOf w = 0xE ∧ (fieldNN w).toNat ∉ [0x9E, 0xA1]) ∨
    (familyOf w = 0xF ∧ (fieldNN w).toNat ∉ [0x07, 0x0A, 0x15, 0x18, 0x1E, 0x29, 0x33, 0x55, 0x65]) := by
  unfold unknownWord familyOf fieldNN fieldN
  split <;> simp_all

theorem decode0_eq_nopUnknown_iff : decode0 w = .nopUnknown u ↔ w = u ∧ (fieldNN w).toNat ∉ [0xE0, 0xEE] := by
  unfold decode0
  split <;> simp_all

theorem decode8_eq_nopUnknown_iff :
    decode8 w = .nopUnknown u ↔ w = u ∧ (fieldN w).val ∈ [0x8, 0x9, 0xA, 0xB, 0xC, 0xD, 0xF] := by
  unfold decode8
  split
  case h_10 =>
    have := (fieldN w).isLt
    simp only [imp_false] at *
    simp only [Instr.nopUnknown.injEq, List.mem_cons, List.not_mem_nil, or_false]
    exact (and_iff_left (by omega)).symm
  all_goals simp [*]

theorem decodeE_eq_nopUnknown_iff : decodeE w = .nopUnknown u ↔ w = u ∧ (fieldNN w).toNat ∉ [0x9E, 0xA1] := by
  unfold decodeE
  split <;> simp_all

theorem decodeF_eq_nopUnknown_iff : decodeF w = .nopUnknown u ↔
    w = u ∧ (fieldNN w).toNat ∉ [0x07, 0x0A, 0x15, 0x18, 0x1E, 0x29, 0x33, 0x55, 0x65] := by
  unfold decodeF
  split <;> simp_all

/-- R57: a word decodes to the fallback exactly when the table lists it, and the fallback carries it. -/
theorem decode_eq_nopUnknown_iff : decode w = .nopUnknown u ↔ w = u ∧ unknownWord w = true := by
  rw [unknownWord_iff]
  unfold decode
  split
  case h_1 hf => simp [hf, decode0_eq_nopUnknown_iff]
  case h_9 hf => simp [hf, decode8_eq_nopUnknown_iff]
  case h_15 hf => simp [hf, decodeE_eq_nopUnknown_iff]
  case h_16 =>
    have := familyOf_lt w
    simp only [imp_false] at *
    have hf : familyOf w = 0xF := by omega
    simp [hf, decodeF_eq_nopUnknown_iff]
  all_goals rename_i hf; simp [hf]

end

/-- Settles O5: R57's table, its keys read as numbers of the word. -/
theorem unknownWordsAreTheListedOnes : Obligations.UnknownWordsAreTheListedOnes := by
  intro w
  simp only [decode_eq_nopUnknown_iff, exists_eq_left', unknownWord_iff, familyOf_eq, fieldNN_toNat, fieldN_val]

/-! ## Decoding an encoded instruction -/

/-- Every operand of the encoded word is read back by its field, and the family and key select the constructor again; an unknown
word is its own encoding. -/
theorem decode_encode {i : Instr} (h : i.wellFormed = true) : decode (encode i) = i := by
  cases i with
  | nopUnknown w => exact decode_eq_nopUnknown_iff.mpr ⟨rfl, h⟩
  | cls | ret => decide
  | _ => simp [encode, decode, decode8, decodeE, decodeF, nibble]

theorem decodeBytes_encodeBytes (i : Instr) (rest : List Byte) :
    decodeBytes (encodeBytes i ++ rest) = .ok (decode (encode i), rest) := by
  simp [encodeBytes, decodeBytes]

/-- Settles O1: `decode_encode`, and a word is the pair of its bytes. -/
theorem decodeInvertsEncode : Obligations.DecodeInvertsEncode := by
  intro i hi
  refine ⟨decode_encode hi, fun rest => ?_⟩
  rw [decodeBytes_encodeBytes, decode_encode hi]

/-! ## Encoding a decoded word (R58, R60) -/

theorem and_FFF0_toNat (w : Opcode) : (w &&& 0xFFF0#16).toNat = w.toNat / 16 * 16 := by
  have h : (0xFFF0#16) = 0xF#4 ++ (0xFF#8 ++ 0x0#4 : BitVec 12) := by decide
  have := w.isLt
  rw [h, mask_split, show (0xF#4) = BitVec.allOnes 4 by decide, show (0xFF#8) = BitVec.allOnes 8 by decide,
    BitVec.and_allOnes, BitVec.and_allOnes, BitVec.and_zero]
  simp only [toNat_append_eq, BitVec.extractLsb'_toNat, Nat.shiftRight_eq_div_pow, BitVec.toNat_ofNat]
  omega

section
variable {w : Opcode} {f : BitVec 4} (hf : familyOf w = f.toNat)
include hf

theorem encAddr_fields : encAddr f (fieldNNN w) = w := by
  rw [familyOf_eq] at hf
  apply BitVec.eq_of_toNat_eq
  rw [encAddr_toNat, fieldNNN_toNat]
  omega

theorem encXImm_fields {kk : Byte} (hk : (fieldNN w).toNat = kk.toNat) : encXImm f (fieldX w) kk = w := by
  rw [familyOf_eq] at hf
  rw [fieldNN_toNat] at hk
  apply BitVec.eq_of_toNat_eq
  rw [encXImm_toNat, fieldX_val]
  omega

theorem encXY_fields {k : BitVec 4} (hk : (fieldN w).val = k.toNat) : encXY f (fieldX w) (fieldY w) k = w := by
  rw [familyOf_eq] at hf
  rw [fieldN_val] at hk
  apply BitVec.eq_of_toNat_eq
  rw [encXY_toNat, fieldX_val, fieldY_val]
  omega

/-- An ignored low nibble comes back 0. -/
theorem encXY_fields_zero : encXY f (fieldX w) (fieldY w) 0x0#4 = w &&& 0xFFF0#16 := by
  rw [familyOf_eq] at hf
  apply BitVec.eq_of_toNat_eq
  rw [encXY_toNat, fieldX_val, fieldY_val, and_FFF0_toNat]
  show _ + 0 = _
  omega

end

/-- What is left of a word when the bits its instruction ignores are 0 (R58). -/
def canonicalWord (w : Opcode) : Instr → Opcode
  | .cls | .ret => w &&& 0xF0FF#16
  | .seReg _ _ | .sneReg _ _ => w &&& 0xFFF0#16
  | _ => w

theorem encode_decode0 {w : Opcode} (hf : familyOf w = 0x0) : encode (decode0 w) = canonicalWord w (decode0 w) := by
  unfold decode0
  split
  case h_3 => rfl
  all_goals
    rename_i hkey
    apply BitVec.eq_of_toNat_eq
    rw [canonicalWord, and_F0FF_toNat, ← familyOf_eq, ← fieldNN_toNat, hf, hkey]
    rfl

theorem encode_decode8 {w : Opcode} (hf : familyOf w = 0x8) : encode (decode8 w) = canonicalWord w (decode8 w) := by
  unfold decode8
  split
  case h_10 => rfl
  all_goals rename_i hkey; exact encXY_fields hf hkey

theorem encode_decodeE {w : Opcode} (hf : familyOf w = 0xE) : encode (decodeE w) = canonicalWord w (decodeE w) := by
  unfold decodeE
  split
  case h_3 => rfl
  all_goals rename_i hkey; exact encXImm_fields hf hkey

theorem encode_decodeF {w : Opcode} (hf : familyOf w = 0xF) : encode (decodeF w) = canonicalWord w (decodeF w) := by
  unfold decodeF
  split
  case h_10 => rfl
  all_goals rename_i hkey; exact encXImm_fields hf hkey

theorem encode_decode (w : Opcode) : encode (decode w) = canonicalWord w (decode w) := by
  unfold decode
  split
  case h_1 hf => exact encode_decode0 hf
  case h_9 hf => exact encode_decode8 hf
  case h_15 hf => exact encode_decodeE hf
  case h_16 =>
    have := familyOf_lt w
    simp only [imp_false] at *
    exact encode_decodeF (by omega)
  case h_2 hf | h_3 hf | h_11 hf | h_12 hf => exact encAddr_fields hf
  case h_6 hf | h_10 hf => exact encXY_fields_zero hf
  case h_14 hf => exact encXY_fields hf rfl
  case h_4 hf | h_5 hf | h_7 hf | h_8 hf | h_13 hf => exact encXImm_fields hf rfl

theorem wellFormed_decode (w : Opcode) : (decode w).wellFormed = true := by
  cases h : decode w with
  | nopUnknown u =>
    obtain ⟨rfl, hw⟩ := decode_eq_nopUnknown_iff.mp h
    exact hw
  | _ => rfl

/-- Settles O2: `wellFormed_decode` and `encode_decode`. -/
theorem encodeRestoresDecodedWord : Obligations.EncodeRestoresDecodedWord :=
  fun w => ⟨wellFormed_decode w, encode_decode w⟩

/-! ## The operands of a decoded word (R51, R53) -/

/-- Settles O4: every operand the decoder writes is one of the fields `fieldX_val` to `fieldNNN_toNat` give as numbers. -/
theorem operandsAreTheWordsFields : Obligations.OperandsAreTheWordsFields := by
  intro w
  unfold decode decode0 decode8 decodeE decodeF
  split
  case h_1 | h_9 | h_15 | h_16 => split <;> simp [Claims.OperandsAreFields, fieldX_val, fieldY_val]
  all_goals simp [Claims.OperandsAreFields, fieldX_val, fieldY_val, fieldN_val, fieldNN_toNat, fieldNNN_toNat]

/-- Settles O6: the decoder's arms on closed words. -/
theorem sampleWordsDecode : Obligations.SampleWordsDecode := ⟨rfl, rfl⟩

/-! ## The rows of the opcode map (R56) -/

theorem fieldN_eq (w : Opcode) : fieldN w = Claims.N w := Fin.ext (fieldN_val w)

theorem encodes_ret : Claims.Encodes 0xF0FF#16 0x00EE#16 (fun _ => .ret) :=
  encodes_of_family_byte 0x0 0xEE rfl rfl fun w hf hk => by simp only [decode, hf, decode0, hk]

theorem encodes_call : Claims.Encodes 0xF000#16 0x2000#16 (fun w => .call (Claims.NNN w)) :=
  encodes_of_family 0x2 rfl fun w hf => by simp only [decode, hf, fieldNNN_eq]

theorem encodes_seReg : Claims.Encodes 0xF000#16 0x5000#16 (fun w => .seReg (Claims.X w) (Claims.Y w)) :=
  encodes_of_family 0x5 rfl fun w hf => by simp only [decode, hf, fieldX_eq, fieldY_eq]

theorem encodes_ldImm : Claims.Encodes 0xF000#16 0x6000#16 (fun w => .ldImm (Claims.X w) (Claims.NN w)) :=
  encodes_of_family 0x6 rfl fun w hf => by simp only [decode, hf, fieldX_eq, fieldNN_eq]

theorem encodes_addImm : Claims.Encodes 0xF000#16 0x7000#16 (fun w => .addImm (Claims.X w) (Claims.NN w)) :=
  encodes_of_family 0x7 rfl fun w hf => by simp only [decode, hf, fieldX_eq, fieldNN_eq]

theorem encodes_sneReg : Claims.Encodes 0xF000#16 0x9000#16 (fun w => .sneReg (Claims.X w) (Claims.Y w)) :=
  encodes_of_family 0x9 rfl fun w hf => by simp only [decode, hf, fieldX_eq, fieldY_eq]

theorem encodes_ldI : Claims.Encodes 0xF000#16 0xA000#16 (fun w => .ldI (Claims.NNN w)) :=
  encodes_of_family 0xA rfl fun w hf => by simp only [decode, hf, fieldNNN_eq]

theorem encodes_jpV0 : Claims.Encodes 0xF000#16 0xB000#16 (fun w => .jpV0 (Claims.NNN w)) :=
  encodes_of_family 0xB rfl fun w hf => by simp only [decode, hf, fieldNNN_eq]

theorem encodes_rnd : Claims.Encodes 0xF000#16 0xC000#16 (fun w => .rnd (Claims.X w) (Claims.NN w)) :=
  encodes_of_family 0xC rfl fun w hf => by simp only [decode, hf, fieldX_eq, fieldNN_eq]

theorem encodes_drw : Claims.Encodes 0xF000#16 0xD000#16 (fun w => .drw (Claims.X w) (Claims.Y w) (Claims.N w)) :=
  encodes_of_family 0xD rfl fun w hf => by simp only [decode, hf, fieldX_eq, fieldY_eq, fieldN_eq]

theorem encodes_orReg : Claims.Encodes 0xF00F#16 0x8001#16 (fun w => .orReg (Claims.X w) (Claims.Y w)) :=
  encodes_of_family_nibble 0x8 0x1 rfl rfl fun w hf hk => by simp only [decode, hf, decode8, hk, fieldX_eq, fieldY_eq]

theorem encodes_andReg : Claims.Encodes 0xF00F#16 0x8002#16 (fun w => .andReg (Claims.X w) (Claims.Y w)) :=
  encodes_of_family_nibble 0x8 0x2 rfl rfl fun w hf hk => by simp only [decode, hf, decode8, hk, fieldX_eq, fieldY_eq]

theorem encodes_xorReg : Claims.Encodes 0xF00F#16 0x8003#16 (fun w => .xorReg (Claims.X w) (Claims.Y w)) :=
  encodes_of_family_nibble 0x8 0x3 rfl rfl fun w hf hk => by simp only [decode, hf, decode8, hk, fieldX_eq, fieldY_eq]

theorem encodes_addReg : Claims.Encodes 0xF00F#16 0x8004#16 (fun w => .addReg (Claims.X w) (Claims.Y w)) :=
  encodes_of_family_nibble 0x8 0x4 rfl rfl fun w hf hk => by simp only [decode, hf, decode8, hk, fieldX_eq, fieldY_eq]

theorem encodes_subReg : Claims.Encodes 0xF00F#16 0x8005#16 (fun w => .subReg (Claims.X w) (Claims.Y w)) :=
  encodes_of_family_nibble 0x8 0x5 rfl rfl fun w hf hk => by simp only [decode, hf, decode8, hk, fieldX_eq, fieldY_eq]

theorem encodes_shr : Claims.Encodes 0xF00F#16 0x8006#16 (fun w => .shr (Claims.X w) (Claims.Y w)) :=
  encodes_of_family_nibble 0x8 0x6 rfl rfl fun w hf hk => by simp only [decode, hf, decode8, hk, fieldX_eq, fieldY_eq]

theorem encodes_subn : Claims.Encodes 0xF00F#16 0x8007#16 (fun w => .subn (Claims.X w) (Claims.Y w)) :=
  encodes_of_family_nibble 0x8 0x7 rfl rfl fun w hf hk => by simp only [decode, hf, decode8, hk, fieldX_eq, fieldY_eq]

theorem encodes_shl : Claims.Encodes 0xF00F#16 0x800E#16 (fun w => .shl (Claims.X w) (Claims.Y w)) :=
  encodes_of_family_nibble 0x8 0xE rfl rfl fun w hf hk => by simp only [decode, hf, decode8, hk, fieldX_eq, fieldY_eq]

theorem encodes_skp : Claims.Encodes 0xF0FF#16 0xE09E#16 (fun w => .skp (Claims.X w)) :=
  encodes_of_family_byte 0xE 0x9E rfl rfl fun w hf hk => by simp only [decode, hf, decodeE, hk, fieldX_eq]

theorem encodes_sknp : Claims.Encodes 0xF0FF#16 0xE0A1#16 (fun w => .sknp (Claims.X w)) :=
  encodes_of_family_byte 0xE 0xA1 rfl rfl fun w hf hk => by simp only [decode, hf, decodeE, hk, fieldX_eq]

theorem encodes_ldVxK : Claims.Encodes 0xF0FF#16 0xF00A#16 (fun w => .ldVxK (Claims.X w)) :=
  encodes_of_family_byte 0xF 0x0A rfl rfl fun w hf hk => by simp only [decode, hf, decodeF, hk, fieldX_eq]

theorem encodes_addI : Claims.Encodes 0xF0FF#16 0xF01E#16 (fun w => .addI (Claims.X w)) :=
  encodes_of_family_byte 0xF 0x1E rfl rfl fun w hf hk => by simp only [decode, hf, decodeF, hk, fieldX_eq]

theorem encodes_ldF : Claims.Encodes 0xF0FF#16 0xF029#16 (fun w => .ldF (Claims.X w)) :=
  encodes_of_family_byte 0xF 0x29 rfl rfl fun w hf hk => by simp only [decode, hf, decodeF, hk, fieldX_eq]

theorem encodes_ldB : Claims.Encodes 0xF0FF#16 0xF033#16 (fun w => .ldB (Claims.X w)) :=
  encodes_of_family_byte 0xF 0x33 rfl rfl fun w hf hk => by simp only [decode, hf, decodeF, hk, fieldX_eq]

theorem encodes_dump : Claims.Encodes 0xF0FF#16 0xF055#16 (fun w => .dump (Claims.X w)) :=
  encodes_of_family_byte 0xF 0x55 rfl rfl fun w hf hk => by simp only [decode, hf, decodeF, hk, fieldX_eq]

theorem encodes_load : Claims.Encodes 0xF0FF#16 0xF065#16 (fun w => .load (Claims.X w)) :=
  encodes_of_family_byte 0xF 0x65 rfl rfl fun w hf hk => by simp only [decode, hf, decodeF, hk, fieldX_eq]

/-- R56: a word that matches an instruction's row decodes to an instruction of that row. -/
theorem row_decode_of_admits {i : Instr} (hi : ∀ u, i ≠ .nopUnknown u) {w : Opcode} (h : i.row.admits w = true) :
    (decode w).row = i.row := by
  replace h : w &&& i.row.mask = i.row.value := beq_iff_eq.mp h
  cases i with
  | nopUnknown u => exact absurd rfl (hi u)
  | cls => exact (congrArg Instr.row (encodes_cls w h) :)
  | ret => exact (congrArg Instr.row (encodes_ret w h) :)
  | jp => exact (congrArg Instr.row (encodes_jp w h) :)
  | call => exact (congrArg Instr.row (encodes_call w h) :)
  | seImm => exact (congrArg Instr.row (encodes_seImm w h) :)
  | sneImm => exact (congrArg Instr.row (encodes_sneImm w h) :)
  | seReg => exact (congrArg Instr.row (encodes_seReg w h) :)
  | ldImm => exact (congrArg Instr.row (encodes_ldImm w h) :)
  | addImm => exact (congrArg Instr.row (encodes_addImm w h) :)
  | ldReg => exact (congrArg Instr.row (encodes_ldReg w h) :)
  | orReg => exact (congrArg Instr.row (encodes_orReg w h) :)
  | andReg => exact (congrArg Instr.row (encodes_andReg w h) :)
  | xorReg => exact (congrArg Instr.row (encodes_xorReg w h) :)
  | addReg => exact (congrArg Instr.row (encodes_addReg w h) :)
  | subReg => exact (congrArg Instr.row (encodes_subReg w h) :)
  | shr => exact (congrArg Instr.row (encodes_shr w h) :)
  | subn => exact (congrArg Instr.row (encodes_subn w h) :)
  | shl => exact (congrArg Instr.row (encodes_shl w h) :)
  | sneReg => exact (congrArg Instr.row (encodes_sneReg w h) :)
  | ldI => exact (congrArg Instr.row (encodes_ldI w h) :)
  | jpV0 => exact (congrArg Instr.row (encodes_jpV0 w h) :)
  | rnd => exact (congrArg Instr.row (encodes_rnd w h) :)
  | drw => exact (congrArg Instr.row (encodes_drw w h) :)
  | skp => exact (congrArg Instr.row (encodes_skp w h) :)
  | sknp => exact (congrArg Instr.row (encodes_sknp w h) :)
  | ldVxDt => exact (congrArg Instr.row (encodes_ldVxDt w h) :)
  | ldVxK => exact (congrArg Instr.row (encodes_ldVxK w h) :)
  | ldDtVx => exact (congrArg Instr.row (encodes_ldDtVx w h) :)
  | ldStVx => exact (congrArg Instr.row (encodes_ldStVx w h) :)
  | addI => exact (congrArg Instr.row (encodes_addI w h) :)
  | ldF => exact (congrArg Instr.row (encodes_ldF w h) :)
  | ldB => exact (congrArg Instr.row (encodes_ldB w h) :)
  | dump => exact (congrArg Instr.row (encodes_dump w h) :)
  | load => exact (congrArg Instr.row (encodes_load w h) :)

/-- Rows whose values differ in a bit that both masks keep match no common word. -/
theorem not_admits_both {r q : OpcodeRow} (h : r.value &&& q.mask ≠ q.value &&& r.mask) (w : Opcode) :
    ¬(r.admits w = true ∧ q.admits w = true) := by
  rintro ⟨hr, hq⟩
  rw [← beq_iff_eq.mp hr, ← beq_iff_eq.mp hq, BitVec.and_assoc, BitVec.and_assoc, BitVec.and_comm r.mask] at h
  exact h rfl

theorem opcodeRows_disjoint : opcodeRows.Pairwise (fun r q => ∀ w, ¬(r.admits w = true ∧ q.admits w = true)) := by
  have h : opcodeRows.Pairwise (fun r q => r.value &&& q.mask ≠ q.value &&& r.mask) := by decide
  exact h.imp not_admits_both

/-- Every row of the list is the row of an instruction other than the fallback. -/
theorem exists_row_eq {r : OpcodeRow} (h : r ∈ opcodeRows) : ∃ i : Instr, (∀ u, i ≠ .nopUnknown u) ∧ i.row = r := by
  simp only [opcodeRows, ← List.map_append, List.mem_map] at h
  obtain ⟨i, hi, rfl⟩ := h
  refine ⟨i, ?_, rfl⟩
  rintro u rfl
  simp at hi

/-- Settles O3: `opcodeRows_disjoint`, `row_decode_of_admits` for the rows and `decode_of_no_row` for the other words. -/
theorem opcodeMapRowsSelectInstruction : Obligations.OpcodeMapRowsSelectInstruction := by
  refine ⟨rfl, opcodeRows_disjoint, fun w => ⟨fun r hr hw => ?_, decode_of_no_row⟩⟩
  obtain ⟨i, hi, rfl⟩ := exists_row_eq hr
  exact row_decode_of_admits hi hw

end Sys2Proof.Laws
end

section
/-! PROOFS. What each instruction leaves: the answer of every rule that branches on an operation, then control flow
(spec/41_control_flow.md), arithmetic and logic (42_arith_logic.md), the immediate loads (44_immediate_loads.md) and the keypad, index
and memory group (43_display_timers_input.md). -/

namespace Sys2Proof.Machine

open Sys2Proof.Laws

/-! ## Accesses to memory through I (R35) -/

/-- The number of bytes an instruction reads or writes from I up; 0 for one that makes no such access. -/
def accessLength : Instr → Nat
  | .drw _ _ n => n.val
  | .ldB _ => 3
  | .dump x | .load x => x.val + 1
  | _ => 0

theorem not_runFits_iff {n : Nat} {s : State} : ¬Claims.RunFits n s ↔ n ≠ 0 ∧ 4095 < s.i.toNat + n - 1 := by
  rw [Claims.RunFits, not_or, Nat.not_le]

/-- R35, R142: an access past 4095 is reported with its highest address, and nothing else changes. -/
theorem exec_of_not_runFits {i : Instr} {s : State} (h : ¬Claims.RunFits (accessLength i) s) :
    exec i s = .next { s with report := some (.outOfBounds (s.i.toNat + accessLength i - 1)) } := by
  have hout := not_runFits_iff.mp h
  cases i with
  | drw x y n =>
    have hrun : loadRun s.i.toNat n.val s = .error (s.i.toNat + n.val - 1) := loadRun_error.mpr ⟨hout.1, hout.2, rfl⟩
    show execDrw x y n s = _
    rw [execDrw, hrun]
    rfl
  | ldB x =>
    have hrun : storeRun s.i.toNat (bcdDigits (readV x s)) s = .error (s.i.toNat + 3 - 1) :=
      storeRun_error.mpr ⟨hout.1, hout.2, rfl⟩
    show execLdB x s = _
    rw [execLdB, hrun]
    rfl
  | dump x => exact exec_dump_of_gt hout.2
  | load x => exact exec_load_of_gt hout.2
  | _ => exact absurd rfl hout.1

section
variable {x : VReg} {s : State}

theorem exec_ldB_of_runFits (h : Claims.RunFits 3 s) : exec (.ldB x) s =
    .next { s with mem := s.mem.setBytes s.i.toNat (bcdDigits (readV x s)), pc := s.pc + 2, report := none } := by
  have hrun : storeRun s.i.toNat (bcdDigits (readV x s)) s = .ok _ := storeRun_ok.mpr ⟨h, rfl⟩
  show execLdB x s = _
  rw [execLdB, hrun]
  rfl

theorem exec_dump_of_runFits (h : Claims.RunFits (x.val + 1) s) : exec (.dump x) s =
    .next { s with mem := s.mem.setBytes s.i.toNat (firstRegs x s), pc := s.pc + 2, report := none } := by
  show execDump x s = _
  rw [execDump, storeRun_ok.mpr ⟨by rwa [length_firstRegs], rfl⟩]
  rfl

theorem exec_load_of_runFits (h : Claims.RunFits (x.val + 1) s) : exec (.load x) s =
    .next { s with
      v := (writeFirstRegs (s.mem.bytesFrom s.i.toNat (x.val + 1)) s).v, pc := s.pc + 2, report := none } := by
  show execLoad x s = _
  rw [execLoad, loadRun_ok.mpr ⟨h, rfl⟩]
  simp only [complete, nextInstr, jumpTo, writeFirstRegs]

end

/-- Settles O30: the four accesses by `exec_of_not_runFits`. -/
theorem dataAccessPastEndChangesNothing : Obligations.DataAccessPastEndChangesNothing := by
  intro x y n s
  refine ⟨fun hn hout => ?_, fun hout => ?_, fun hout => ⟨?_, ?_⟩⟩
  · exact exec_of_not_runFits (i := .drw x y n) (not_runFits_iff.mpr ⟨hn, hout⟩)
  · exact exec_of_not_runFits (i := .ldB x) (not_runFits_iff.mpr ⟨Nat.succ_ne_zero 2, hout⟩)
  · exact exec_dump_of_gt hout
  · exact exec_load_of_gt hout

/-! ## The call stack (R81, R83) -/

section
variable {nnn : Addr} {s : State}

theorem exec_call_of_lt (h : s.sp.val < 16) : exec (.call nnn) s =
    .next { s with
      stk := s.stk.set s.sp.val (s.pc + 2), sp := ⟨s.sp.val + 1, by omega⟩, pc := zextAddr nnn, report := none } := by
  show execCall nnn s = _
  rw [execCall, push, dif_pos h]
  rfl

theorem exec_call_of_full (h : s.sp.val = 16) : exec (.call nnn) s = .next { s with report := some (.stackOverflow s.pc) } := by
  show execCall nnn s = _
  rw [execCall, push_eq_none.mpr h]
  rfl

theorem exec_ret_of_pos {k : Fin 16} (h : s.sp.val = k.val + 1) :
    exec .ret s = .next { s with sp := k.castSucc, pc := s.stk[k], report := none } := by
  show execRet s = _
  rw [execRet, pop_eq_some.mpr ⟨k, h, rfl, rfl⟩]
  rfl

theorem exec_ret_of_empty (h : s.sp.val = 0) :
    exec .ret s = .next { s with pc := BitVec.ofNat 16 Config.progBase, report := some (.stackUnderflow s.pc) } := by
  show execRet s = _
  rw [execRet, pop_eq_none.mpr h]
  rfl

end

/-- Settles O11: `exec_ret_of_pos` and `exec_ret_of_empty`. -/
theorem retPopsReturnAddress : Obligations.RetPopsReturnAddress :=
  ⟨encodes_ret, fun _ _ h => ⟨_, exec_ret_of_pos h, rfl, rfl, rfl, rfl, rfl⟩,
    fun _ h => ⟨_, exec_ret_of_empty h, rfl, rfl, rfl⟩⟩

/-- What every entry of the stack holds after a call. -/
theorem getElem_set_stack (stk : Vector Word 16) (j : Nat) (hj : j < 16) (a : Word) (k : Fin 16) :
    (stk.set j a)[k] = if k.val = j then a else stk[k] := by
  simp only [Fin.getElem_fin, Vector.getElem_set, eq_comm]

/-- Settles O14: `exec_call_of_lt` and `exec_call_of_full`. -/
theorem callPushesReturnAddress : Obligations.CallPushesReturnAddress :=
  ⟨encodes_call, fun nnn s h => ⟨_, exec_call_of_lt h, rfl, zextAddr_toNat nnn, rfl, getElem_set_stack s.stk _ h _, rfl⟩,
    fun _ _ h => exec_call_of_full h⟩

/-- Settles O15: the return pops the entry the call pushed. -/
theorem returnUndoesCall : Obligations.ReturnUndoesCall := by
  intro nnn s h
  refine ⟨_, _, exec_call_of_lt h, exec_ret_of_pos (k := ⟨s.sp.val, h⟩) rfl, ?_, rfl, rfl, fun k hk => ?_, rfl⟩
  · exact (getElem_set_stack s.stk _ h _ _).trans (if_pos rfl)
  · exact (getElem_set_stack s.stk _ h _ k).trans (if_neg hk)

/-! ## Jumps and skips on registers (R86 to R88) -/

theorem zextV_toNat (r : VReg) (s : State) : (zextV r s).toNat = (readV r s).toNat := BitVec.toNat_setWidth_of_le (by decide)

/-- R88: the target is the exact sum. -/
theorem jpV0_target_toNat (nnn : Addr) (s : State) :
    (zextV 0 s + zextAddr nnn).toNat = (readV 0 s).toNat + nnn.toNat := by
  rw [BitVec.toNat_add, zextV_toNat, zextAddr_toNat]
  omega

/-- Settles O13: the exact sum of `jpV0_target_toNat`. -/
theorem jpV0AddsV0ToOperand : Obligations.JpV0AddsV0ToOperand :=
  ⟨encodes_jpV0, fun nnn s => ⟨_, rfl, rfl, jpV0_target_toNat nnn s, rfl⟩⟩

/-- Settles O17: the two cases of a skip, for the test on equality and for the test on difference. -/
theorem registerSkipsCompare : Obligations.RegisterSkipsCompare :=
  ⟨encodes_seReg, encodes_sneReg, fun _ _ s =>
    ⟨complete_skipIf_spec s beq_iff_eq.mpr beq_eq_false_iff_ne.mpr,
      complete_skipIf_spec s bne_iff_ne.mpr bne_eq_false_iff_eq.mpr⟩⟩

/-! ## Results without a flag (R92 to R94, R130, R131) -/

/-- Settles O20: a write of one register, `complete_writeV_spec`, for each of the two. -/
theorem andXorCombineBits : Obligations.AndXorCombineBits := by
  refine ⟨encodes_andReg, encodes_xorReg, fun x y s => ⟨?_, ?_⟩⟩
  · obtain ⟨t, hnext, hadv, hv, hframe⟩ := complete_writeV_spec x (readV x s &&& readV y s) s
    exact ⟨t, hnext, hadv, fun k _ => by rw [hv, BitVec.getLsbD_and], hframe⟩
  · obtain ⟨t, hnext, hadv, hv, hframe⟩ := complete_writeV_spec x (readV x s ^^^ readV y s) s
    exact ⟨t, hnext, hadv, fun k _ => by rw [hv, BitVec.getLsbD_xor], hframe⟩

/-- Settles O21: a write of one register, `complete_writeV_spec`. -/
theorem orCombinesBits : Obligations.OrCombinesBits := by
  refine ⟨encodes_orReg, fun x y s => ?_⟩
  obtain ⟨t, hnext, hadv, hv, hframe⟩ := complete_writeV_spec x (readV x s ||| readV y s) s
  exact ⟨t, hnext, hadv, fun k _ => by rw [hv, BitVec.getLsbD_or], hframe⟩

/-- Settles O27: two writes of one register, `complete_writeV_spec`, and a write of I. -/
theorem immediateLoadsWriteOperand : Obligations.ImmediateLoadsWriteOperand := by
  refine ⟨encodes_ldImm, encodes_addImm, encodes_ldI, fun x nn s => ⟨complete_writeV_spec x nn s, ?_⟩,
    fun nnn s => ⟨_, rfl, ⟨rfl, rfl⟩, zextAddr_toNat nnn, rfl⟩⟩
  obtain ⟨t, hnext, hadv, hv, hframe⟩ := complete_writeV_spec x (readV x s + nn) s
  exact ⟨t, hnext, hadv, by rw [hv, BitVec.toNat_add], hframe⟩

/-! ## Results with a flag (R90, R95 to R99) -/

theorem flagByte_of {p : Prop} [Decidable p] (h : p) : flagByte (decide p) = 1 := by
  rw [decide_eq_true h]
  rfl

theorem flagByte_of_not {p : Prop} [Decidable p] (h : ¬p) : flagByte (decide p) = 0 := by
  rw [decide_eq_false h]
  rfl

/-- R90: an instruction with a flag advances with the result in `V[x]` and, unless `x` is 15, the flag in VF; the other registers and
the state outside V and PC are kept. -/
theorem complete_writeFlagged_spec (x : VReg) (r : Flagged) (s : State) :
    ∃ t, complete (nextInstr (writeFlagged x r s)) = .next t ∧ Claims.Advances s t ∧
      readV x t = r.result ∧ (x ≠ 15 → readV 15 t = flagByte r.flag) ∧
      Claims.KeepsVBut [x, 15] s t ∧ Claims.SameButVPc s t := by
  have hread (q : VReg) := readV_writeFlagged x q r s
  refine ⟨_, rfl, ⟨rfl, rfl⟩, ?_, fun hx => ?_, fun q hq => ?_, rfl⟩
  · exact (hread x).trans (if_pos rfl)
  · exact (hread 15).trans ((if_neg hx.symm).trans (if_pos rfl))
  · simp only [List.mem_cons, List.not_mem_nil, or_false, not_or] at hq
    exact (hread q).trans ((if_neg hq.1).trans (if_neg hq.2))

/-- Settles O22: `complete_writeFlagged_spec` for the sum and its carry. -/
theorem addRegAddsWithCarryFlag : Obligations.AddRegAddsWithCarryFlag := by
  refine ⟨encodes_addReg, fun x y s => ?_⟩
  obtain ⟨t, hnext, hadv, hv, hvf, hframe⟩ := complete_writeFlagged_spec x (addFlagged (readV x s) (readV y s)) s
  refine ⟨t, hnext, hadv, ?_, fun hx => ⟨fun hcarry => ?_, fun hfits => ?_⟩, hframe⟩
  · rw [hv]
    exact BitVec.toNat_ofNat ..
  · exact (hvf hx).trans (flagByte_of hcarry)
  · exact (hvf hx).trans (flagByte_of_not (Nat.not_lt.mpr hfits))

/-- R96, R98: a subtraction of `b` from `a` into `V[x]`. -/
theorem complete_subFlagged_spec (x : VReg) (a b : Byte) (s : State) :
    ∃ t, complete (nextInstr (writeFlagged x (subFlagged a b) s)) = .next t ∧ Claims.Advances s t ∧
      (readV x t).toNat = (a.toNat + 256 - b.toNat) % 256 ∧
      (x ≠ 15 → (a.toNat > b.toNat → readV 15 t = 1) ∧ (a.toNat ≤ b.toNat → readV 15 t = 0)) ∧
      Claims.KeepsVBut [x, 15] s t ∧ Claims.SameButVPc s t := by
  obtain ⟨t, hnext, hadv, hv, hvf, hframe⟩ := complete_writeFlagged_spec x (subFlagged a b) s
  refine ⟨t, hnext, hadv, ?_, fun hx => ⟨fun hgt => ?_, fun hle => ?_⟩, hframe⟩
  · rw [hv]
    show (a - b).toNat = _
    rw [BitVec.toNat_sub]
    omega
  · exact (hvf hx).trans (flagByte_of hgt)
  · exact (hvf hx).trans (flagByte_of_not (Nat.not_lt.mpr hle))

/-- Settles O23: `complete_subFlagged_spec` both ways round. -/
theorem subtractionsCompareStrictly : Obligations.SubtractionsCompareStrictly :=
  ⟨encodes_subReg, encodes_subn, fun x y s =>
    ⟨complete_subFlagged_spec x (readV x s) (readV y s) s, complete_subFlagged_spec x (readV y s) (readV x s) s⟩⟩

section
variable (a : Byte)

theorem shrFlagged_result_toNat : (shrFlagged a).result.toNat = a.toNat / 2 := by
  simp [shrFlagged, Nat.shiftRight_eq_div_pow]

/-- A flag that is bit `k` of a byte, as VF holds it. -/
theorem flagByte_getLsbD_toNat (k : Nat) : (flagByte (a.getLsbD k)).toNat = a.toNat / 2 ^ k % 2 := by
  rw [BitVec.getLsbD, Nat.testBit_eq_decide_div_mod_eq]
  rcases Nat.mod_two_eq_zero_or_one (a.toNat / 2 ^ k) with hbit | hbit <;> rw [hbit] <;> rfl

theorem shrFlagged_flag_toNat : (flagByte (shrFlagged a).flag).toNat = a.toNat % 2 := by
  rw [shrFlagged, flagByte_getLsbD_toNat, Nat.pow_zero, Nat.div_one]

theorem shlFlagged_result_toNat : (shlFlagged a).result.toNat = a.toNat * 2 % 256 := by
  simp [shlFlagged, Nat.shiftLeft_eq]

theorem shlFlagged_flag_toNat : (flagByte (shlFlagged a).flag).toNat = a.toNat / 128 := by
  rw [shlFlagged, flagByte_getLsbD_toNat]
  omega

end

/-- Settles O24: `complete_writeFlagged_spec` for a shift of `V[X]`, which `shiftUsesVy` selects. -/
theorem shiftsMoveOneBit : Obligations.ShiftsMoveOneBit := by
  refine ⟨encodes_shr, encodes_shl, fun x y s => ⟨?_, ?_⟩⟩
  · obtain ⟨t, hnext, hadv, hv, hvf, hframe⟩ := complete_writeFlagged_spec x (shrFlagged (readV x s)) s
    refine ⟨t, hnext, hadv, ?_, fun hx => ?_, hframe⟩
    · rw [hv, shrFlagged_result_toNat]
    · rw [hvf hx, shrFlagged_flag_toNat]
  · obtain ⟨t, hnext, hadv, hv, hvf, hframe⟩ := complete_writeFlagged_spec x (shlFlagged (readV x s)) s
    refine ⟨t, hnext, hadv, ?_, fun hx => ?_, hframe⟩
    · rw [hv, shlFlagged_result_toNat]
    · rw [hvf hx, shlFlagged_flag_toNat]

/-- Settles O25: the operand is the register the quirk selects, its shifts are those of any byte. -/
theorem shiftQuirkSelectsOperand : Obligations.ShiftQuirkSelectsOperand := by
  refine ⟨rfl, ?_⟩
  rintro usesVy x y r s rfl
  have hsource : shiftSource usesVy x y s = readV (if usesVy then y else x) s := by cases usesVy <;> rfl
  rw [hsource]
  exact ⟨shrFlagged_result_toNat _, shrFlagged_flag_toNat _, shlFlagged_result_toNat _, shlFlagged_flag_toNat _⟩

/-! ## The random byte (R100) -/

/-- R23: a draw takes a byte and changes the random input alone; with one ready it takes the first. -/
theorem drawRandom_eq (s : State) : ∃ b rest n, drawRandom s = (b, { s with rndInput := rest, rndCount := n }) ∧
    ∀ c cs, s.rndInput = c :: cs → b = c ∧ rest = cs ∧ n = s.rndCount := by
  unfold drawRandom
  cases h : s.rndInput with
  | nil => exact ⟨Config.randomByte s.rndCount, [], s.rndCount + 1, by simp only [← h], fun _ _ hready => nomatch hready⟩
  | cons c cs => exact ⟨c, cs, s.rndCount, rfl, fun _ _ hready => by simpa using hready⟩

/-- Settles O26: a write of one register, `complete_writeV_spec`, after the draw of `drawRandom_eq`. -/
theorem rndMasksRandomByte : Obligations.RndMasksRandomByte := by
  refine ⟨encodes_rnd, fun x nn s => ?_⟩
  obtain ⟨b, rest, n, hdraw, hready⟩ := drawRandom_eq s
  obtain ⟨t, hnext, hadv, hv, hkeeps, hsame⟩ := complete_writeV_spec x (b &&& nn) { s with rndInput := rest, rndCount := n }
  have hinput : t.rndInput = rest := (congrArg State.rndInput hsame :)
  have hcount : t.rndCount = n := (congrArg State.rndCount hsame :)
  refine ⟨t, ?_, hadv, ?_, ⟨b, hv⟩, fun k _ hbit => ?_, hkeeps, ?_⟩
  · rw [← hnext]
    show execRnd x nn s = _
    rw [execRnd, hdraw]
  · rintro c cs hcs
    obtain ⟨rfl, rfl, rfl⟩ := hready c cs hcs
    exact ⟨hv, hinput, hcount⟩
  · rw [hv, BitVec.getLsbD_and, hbit, Bool.and_false]
  · exact congrArg (fun q : State => { q with rndInput := s.rndInput, rndCount := s.rndCount }) hsame

/-! ## The draw and the keypad (R110 to R112, R114) -/

/-- Settles O28: `exec_drw_draws`. -/
theorem drwInvertsSpritePixels : Obligations.DrwInvertsSpritePixels := by
  refine ⟨encodes_drw, fun x y n s hfit => ?_⟩
  obtain ⟨t, hnext, h⟩ := exec_drw_draws x y n s hfit
  exact ⟨t, hnext, h.advances, fun px py => ⟨h.pixel_of_under px py, h.pixel_of_not_under px py⟩, h.vf_of_hit, h.vf_of_no_hit,
    h.keeps_v, h.frame⟩

/-- Settles O31: the two cases of a skip, on the key of the low nibble and on its negation. -/
theorem keySkipsReadKeypad : Obligations.KeySkipsReadKeypad := by
  refine ⟨encodes_skp, encodes_sknp, fun x k s hk => ?_⟩
  have hkey : keyDown (lowNibble x s) s = s.key[k] := congrArg (keyDown · s) (Fin.ext hk : lowNibble x s = k)
  refine ⟨complete_skipIf_spec s hkey.trans hkey.trans, complete_skipIf_spec s (fun hup => ?_) fun hdown => ?_⟩
  · rw [hkey, hup, Bool.not_false]
  · rw [hkey, hdown, Bool.not_true]

theorem exec_ldVxK_of_some {x : VReg} {s : State} {k : Fin 16} (h : lowestKey s = some k) :
    exec (.ldVxK x) s = complete (nextInstr (writeV x (BitVec.ofNat 8 k.val) s)) := by
  show execLdVxK x s = _
  rw [execLdVxK, h]

theorem exec_ldVxK_of_none {x : VReg} {s : State} (h : lowestKey s = none) :
    exec (.ldVxK x) s = .next { s with report := none } := by
  show execLdVxK x s = _
  rw [execLdVxK, h]
  rfl

/-- Settles O33: a write of one register, `complete_writeV_spec`, with the lowest pressed key, and the stall. -/
theorem waitForKeyStallsOrStoresLowest : Obligations.WaitForKeyStallsOrStoresLowest := by
  refine ⟨encodes_ldVxK, fun x k s hdown hlower => ?_, fun x s hup => exec_ldVxK_of_none (lowestKey_eq_none.mpr hup)⟩
  obtain ⟨t, hnext, hadv, hv, hframe⟩ := complete_writeV_spec x (BitVec.ofNat 8 k.val) s
  refine ⟨t, ?_, hadv, ?_, hframe⟩
  · rw [exec_ldVxK_of_some (lowestKey_eq_some.mpr ⟨hdown, hlower⟩), hnext]
  · rw [hv, BitVec.toNat_ofNat]
    omega

/-! ## The index register (R117, R118) -/

theorem addI_result_toNat (a b : Nat) : (BitVec.ofNat 16 ((a + b) % Config.memSize)).toNat = (a + b) % 4096 := by
  rw [BitVec.toNat_ofNat, Config.memSize]
  omega

theorem ldF_result_toNat (d : Fin 16) : (BitVec.ofNat 16 (fontBase + glyphBytes * d.val)).toNat = 0x050 + 5 * d.val := by
  rw [BitVec.toNat_ofNat, fontBase, glyphBytes]
  omega

/-- Settles O34: the two values as numbers, each written to I alone. -/
theorem indexOperationsWriteI : Obligations.IndexOperationsWriteI :=
  ⟨encodes_addI, encodes_ldF, fun x s => ⟨⟨_, rfl, ⟨rfl, rfl⟩, addI_result_toNat _ _, rfl⟩,
    ⟨_, rfl, ⟨rfl, rfl⟩, ldF_result_toNat (lowNibble x s), rfl⟩⟩⟩

/-! ## Stores and loads through I (R119 to R121) -/

section
variable {m : Memory} (h : m.wf) {a : Nat} {xs : List Byte} (ha : a + xs.length ≤ 4096)
include h ha

theorem Memory.byteAt_setBytes_inside {k : Nat} (hk : k < xs.length) : (m.setBytes a xs).byteAt (a + k) = xs.getD k 0 := by
  rw [Memory.byteAt_setBytes h ha, if_pos (by omega), Nat.add_sub_cancel_left]

theorem Memory.byteAt_setBytes_outside {b : Nat} (hb : ¬(a ≤ b ∧ b < a + xs.length)) :
    (m.setBytes a xs).byteAt b = m.byteAt b := by
  rw [Memory.byteAt_setBytes h ha, if_neg hb]

end

theorem runFits_succ {n : Nat} {s : State} : Claims.RunFits (n + 1) s ↔ s.i.toNat + n ≤ 4095 := by
  simp [Claims.RunFits]

/-- Settles O35: `exec_ldB_of_runFits`, with the three digits, each a number below 256, read back. -/
theorem bcdStoresDecimalDigits : Obligations.BcdStoresDecimalDigits := by
  refine ⟨encodes_ldB, fun x s hm hfit => ?_⟩
  have hlen : s.i.toNat + (bcdDigits (readV x s)).length ≤ 4096 := Nat.succ_le_succ hfit
  have hdigit (k : Nat) (hk : k < 3) := congrArg BitVec.toNat (Memory.byteAt_setBytes_inside hm hlen (k := k) hk)
  have hbyte {n : Nat} (hn : n < 256) : (BitVec.ofNat 8 n).toNat = n := Nat.mod_eq_of_lt hn
  refine ⟨_, exec_ldB_of_runFits (runFits_succ.mpr hfit), ⟨rfl, rfl⟩, ?_, ?_, ?_, fun a ha => ?_, rfl⟩
  · exact (hdigit 0 (by decide)).trans (hbyte (by omega))
  · exact (hdigit 1 (by decide)).trans (hbyte (by omega))
  · exact (hdigit 2 (by decide)).trans (hbyte (by omega))
  · exact Memory.byteAt_setBytes_outside hm hlen fun hin => ha ⟨hin.1, Nat.le_of_lt_succ hin.2⟩

section
variable {x : VReg} {s : State} (hm : s.mem.wf) (hfit : s.i.toNat + x.val ≤ 4095)
include hm hfit

/-- R120: the bytes a register dump stores. -/
theorem byteAt_dump {k : VReg} (hk : k ≤ x) :
    (s.mem.setBytes s.i.toNat (firstRegs x s)).byteAt (s.i.toNat + k.val) = readV k s := by
  have hlen : s.i.toNat + (firstRegs x s).length ≤ 4096 := by
    rw [length_firstRegs]
    omega
  have hlt : k.val < (firstRegs x s).length := by
    rw [length_firstRegs]
    exact Nat.lt_succ_of_le hk
  rw [Memory.byteAt_setBytes_inside hm hlen hlt, getD_firstRegs x k s hk]

theorem byteAt_dump_outside {a : Nat} (ha : ¬(s.i.toNat ≤ a ∧ a ≤ s.i.toNat + x.val)) :
    (s.mem.setBytes s.i.toNat (firstRegs x s)).byteAt a = s.mem.byteAt a :=
  Memory.byteAt_setBytes_outside hm (by rw [length_firstRegs]; omega) (by rw [length_firstRegs]; omega)

end

/-- Settles O36: `exec_dump_of_runFits`, with the bytes read back. -/
theorem dumpStoresRegisters : Obligations.DumpStoresRegisters :=
  ⟨encodes_dump, fun _ _ hm hfit => ⟨_, exec_dump_of_runFits (runFits_succ.mpr hfit), ⟨rfl, rfl⟩,
    fun _ hk => byteAt_dump hm hfit hk, fun _ ha => byteAt_dump_outside hm hfit ha, rfl⟩⟩

/-- R121: what a register load inside memory does. -/
theorem exec_load_spec {x : VReg} {s : State} (hfit : s.i.toNat + x.val ≤ 4095) :
    ∃ t, exec (.load x) s = .next t ∧ Claims.Advances s t ∧
      (∀ k : VReg, k ≤ x → readV k t = s.mem.byteAt (s.i.toNat + k.val)) ∧
      (∀ k : VReg, x < k → readV k t = readV k s) ∧ Claims.SameButVPc s t := by
  refine ⟨_, exec_load_of_runFits (runFits_succ.mpr hfit), ⟨rfl, rfl⟩, fun k hk => ?_, fun k hk => ?_, rfl⟩
  · exact (readV_writeFirstRegs _ k s).trans (Memory.getD_bytesFrom s.mem _ (Nat.lt_succ_of_le hk) _)
  · exact (readV_writeFirstRegs _ k s).trans
      (List.getD_eq_default _ _ (by rw [Memory.length_bytesFrom]; exact Nat.succ_le_of_lt hk))

/-- Settles O37: `exec_load_spec`. -/
theorem loadReadsRegisters : Obligations.LoadReadsRegisters := ⟨encodes_load, fun _ _ => exec_load_spec⟩

/-- Settles O38: the load of `exec_load_spec` reads the bytes of `byteAt_dump`. -/
theorem loadUndoesDump : Obligations.LoadUndoesDump := by
  intro x s scratch hm hfit
  obtain ⟨t, hdump, -, hbytes, -, hsame⟩ := dumpStoresRegisters.2 x s hm hfit
  have hi : t.i = s.i := (congrArg State.i hsame :)
  obtain ⟨u, hload, -, hlow, hhigh, hframe⟩ := exec_load_spec (x := x) (s := { t with v := scratch }) (hi ▸ hfit)
  refine ⟨t, u, hdump, hload, fun k hk => ?_, hhigh, (congrArg State.i hframe :).trans hi⟩
  rw [hlow k hk, ← hbytes k hk, hi]

end Sys2Proof.Machine
end

section
/-! PROOFS. Rules of the whole machine: every instruction answers a next state, with the PC of R74's table
(spec/40_cycle_dispatch.md) and the report of R140's (60_exceptions.md), and writes only the fields
10_state.md lets it write. Every proof splits an instruction's branches by the same cases, stated first. -/

namespace Sys2Proof.Machine

open Sys2Proof.Laws

/-! ## The branches of an instruction -/

/-- An instruction answers one state. -/
theorem exec_next_unique {i : Instr} {s t u : State} (h : exec i s = .next t) (hu : exec i s = .next u) : t = u :=
  Host.Outcome.next.inj (h.symm.trans hu)

section
variable {nnn : Addr} {x : VReg} {s t : State}

theorem exec_ret_cases (h : exec .ret s = .next t) :
    (∃ k : Fin 16, s.sp.val = k.val + 1 ∧ t = { s with sp := k.castSucc, pc := s.stk[k], report := none }) ∨
    (s.sp.val = 0 ∧ t = { s with pc := BitVec.ofNat 16 Config.progBase, report := some (.stackUnderflow s.pc) }) := by
  rcases Nat.eq_zero_or_pos s.sp.val with hsp | hsp
  · exact .inr ⟨hsp, exec_next_unique h (exec_ret_of_empty hsp)⟩
  · have hk : s.sp.val = (⟨s.sp.val - 1, by omega⟩ : Fin 16).val + 1 := (Nat.sub_add_cancel hsp).symm
    exact .inl ⟨_, hk, exec_next_unique h (exec_ret_of_pos hk)⟩

theorem exec_call_cases (h : exec (.call nnn) s = .next t) :
    (∃ hsp : s.sp.val < 16, t = { s with
      stk := s.stk.set s.sp.val (s.pc + 2), sp := ⟨s.sp.val + 1, by omega⟩, pc := zextAddr nnn, report := none }) ∨
    (s.sp.val = 16 ∧ t = { s with report := some (.stackOverflow s.pc) }) := by
  rcases Nat.lt_or_ge s.sp.val 16 with hsp | hsp
  · exact .inl ⟨hsp, exec_next_unique h (exec_call_of_lt hsp)⟩
  · have hfull : s.sp.val = 16 := by omega
    exact .inr ⟨hfull, exec_next_unique h (exec_call_of_full hfull)⟩

theorem exec_ldVxK_cases (h : exec (.ldVxK x) s = .next t) :
    (∃ k, keyDown k s = true ∧ t = { writeV x (BitVec.ofNat 8 k.val) s with pc := s.pc + 2, report := none }) ∨
    ((∀ k, keyDown k s = false) ∧ t = { s with report := none }) := by
  cases hkey : lowestKey s with
  | none => exact .inr ⟨lowestKey_eq_none.mp hkey, exec_next_unique h (exec_ldVxK_of_none hkey)⟩
  | some k => exact .inl ⟨k, (lowestKey_eq_some.mp hkey).1, exec_next_unique h (exec_ldVxK_of_some hkey)⟩

end

/-! ## Every instruction answers a next state (R77) -/

theorem exec_exists_next (i : Instr) (s : State) : ∃ t, exec i s = .next t := by
  by_cases hfit : Claims.RunFits (accessLength i) s
  case neg => exact ⟨_, exec_of_not_runFits hfit⟩
  cases i with
  | ret =>
    show ∃ t, execRet s = .next t
    unfold execRet
    split <;> exact ⟨_, rfl⟩
  | call nnn =>
    show ∃ t, execCall nnn s = .next t
    unfold execCall
    split <;> exact ⟨_, rfl⟩
  | ldVxK x =>
    show ∃ t, execLdVxK x s = .next t
    unfold execLdVxK
    split <;> exact ⟨_, rfl⟩
  | drw x y n => exact ⟨_, exec_drw_of_runFits x y n s hfit⟩
  | ldB x => exact ⟨_, exec_ldB_of_runFits hfit⟩
  | dump x => exact ⟨_, exec_dump_of_runFits hfit⟩
  | load x => exact ⟨_, exec_load_of_runFits hfit⟩
  | _ => exact ⟨_, rfl⟩

theorem step_exists_next (s : State) : ∃ t, step s = .next t := by
  by_cases hpc : s.pc.toNat ≤ 4094
  · rw [step_of_le hpc]
    exact exec_exists_next _ s
  · exact ⟨_, step_of_gt (Nat.not_le.mp hpc)⟩

/-- Settles O9: `step_exists_next` and `exec_exists_next`. -/
theorem everyStepAnswersNextState : Obligations.EveryStepAnswersNextState := ⟨step_exists_next, exec_exists_next⟩

/-- Settles O7: `step_of_le`. -/
theorem stepRunsDecodedInstruction : Obligations.StepRunsDecodedInstruction := fun _ => step_of_le

/-- Settles O8: the failed fetch of `step_of_gt` leaves a state whose fetch fails alike. -/
theorem fetchPastEndReportsOutOfBounds : Obligations.FetchPastEndReportsOutOfBounds := by
  intro s hpc
  refine ⟨step_of_gt hpc, fun k => ?_⟩
  induction k generalizing s with
  | zero => exact core_run_succ (step_of_gt hpc) 0
  | succ k ih => exact (core_run_succ (step_of_gt hpc) (k + 1)).trans (ih _ hpc)

/-! ## The PC after every instruction (R74) -/

section
variable {c : Bool} {p : Prop} [Decidable p] {s : State}

theorem skipIf_pc_toNat (h : c = true ↔ p) : (skipIf c s).pc.toNat = if p then (s.pc + 4).toNat else (s.pc + 2).toNat := by
  by_cases hp : p <;> simp [hp, h]

theorem skipIf_pc_toNat_of_not (h : c = true ↔ ¬p) :
    (skipIf c s).pc.toNat = if p then (s.pc + 2).toNat else (s.pc + 4).toNat := by
  by_cases hp : p <;> simp [hp, h]

end

/-- An access that does not fit keeps PC. -/
theorem nextPc_of_not_runFits {i : Instr} {s : State} (h : ¬Claims.RunFits (accessLength i) s) :
    Claims.nextPc i s = s.pc.toNat := by
  cases i with
  | drw | ldB | dump | load => exact if_neg h
  | _ => exact absurd (.inl rfl) h

theorem exec_pc {i : Instr} {s t : State} (h : exec i s = .next t) : t.pc.toNat = Claims.nextPc i s := by
  by_cases hfit : Claims.RunFits (accessLength i) s
  case neg =>
    obtain rfl := exec_next_unique h (exec_of_not_runFits hfit)
    exact (nextPc_of_not_runFits hfit).symm
  cases i with
  | jp nnn =>
    obtain rfl := complete_next.mp h
    exact zextAddr_toNat nnn
  | jpV0 nnn =>
    obtain rfl := complete_next.mp h
    exact jpV0_target_toNat nnn s
  | call nnn =>
    obtain ⟨hsp, rfl⟩ | ⟨hsp, rfl⟩ := exec_call_cases h
    · exact (zextAddr_toNat nnn).trans (if_pos hsp).symm
    · exact (if_neg (by omega)).symm
  | ret =>
    obtain ⟨k, hk, rfl⟩ | ⟨hsp, rfl⟩ := exec_ret_cases h
    · simp [Claims.nextPc, hk]
    · simp [Claims.nextPc, hsp, Config.progBase]
  | seImm | seReg =>
    obtain rfl := complete_next.mp h
    exact skipIf_pc_toNat beq_iff_eq
  | sneImm | sneReg =>
    obtain rfl := complete_next.mp h
    exact skipIf_pc_toNat_of_not bne_iff_ne
  | skp =>
    obtain rfl := complete_next.mp h
    exact skipIf_pc_toNat Iff.rfl
  | sknp =>
    obtain rfl := complete_next.mp h
    exact skipIf_pc_toNat_of_not (by rw [Bool.not_eq_true', Bool.not_eq_true])
  | ldVxK =>
    obtain ⟨k, hk, rfl⟩ | ⟨hup, rfl⟩ := exec_ldVxK_cases h
    · exact (if_pos ⟨k, hk⟩).symm
    · exact (if_neg (by simp [hup])).symm
  | drw x y n =>
    obtain rfl := exec_next_unique h (exec_drw_of_runFits x y n s hfit)
    exact (if_pos hfit).symm
  | ldB =>
    obtain rfl := exec_next_unique h (exec_ldB_of_runFits hfit)
    exact (if_pos hfit).symm
  | dump =>
    obtain rfl := exec_next_unique h (exec_dump_of_runFits hfit)
    exact (if_pos hfit).symm
  | load =>
    obtain rfl := exec_next_unique h (exec_load_of_runFits hfit)
    exact (if_pos hfit).symm
  | rnd =>
    obtain rfl := complete_next.mp h
    exact (congrArg (fun q : State => (q.pc + 2).toNat) (drawRandom_frame s) :)
  | _ =>
    obtain rfl := complete_next.mp h
    rfl

/-- Settles O39: `exec_pc`. -/
theorem pcAfterEveryInstruction : Obligations.PcAfterEveryInstruction := fun _ _ _ => exec_pc

/-! ## The report of every instruction (R140) -/

/-- An access that does not fit is reported with its highest address. -/
theorem reportOf_of_not_runFits {i : Instr} {s : State} (h : ¬Claims.RunFits (accessLength i) s) :
    Claims.reportOf i s = some (.outOfBounds (s.i.toNat + accessLength i - 1)) := by
  cases i with
  | drw | ldB | dump | load => exact if_pos (not_runFits_iff.mp h)
  | _ => exact absurd (.inl rfl) h

theorem exec_report {i : Instr} {s t : State} (h : exec i s = .next t) : t.report = Claims.reportOf i s := by
  by_cases hfit : Claims.RunFits (accessLength i) s
  case neg =>
    obtain rfl := exec_next_unique h (exec_of_not_runFits hfit)
    exact (reportOf_of_not_runFits hfit).symm
  have hbounds := mt not_runFits_iff.mpr (not_not.mpr hfit)
  cases i with
  | call nnn =>
    obtain ⟨hsp, rfl⟩ | ⟨hsp, rfl⟩ := exec_call_cases h
    · exact (if_neg (Nat.ne_of_lt hsp)).symm
    · exact (if_pos hsp).symm
  | ret =>
    obtain ⟨k, hk, rfl⟩ | ⟨hsp, rfl⟩ := exec_ret_cases h
    · exact (if_neg (by omega)).symm
    · exact (if_pos hsp).symm
  | ldVxK => obtain ⟨k, -, rfl⟩ | ⟨-, rfl⟩ := exec_ldVxK_cases h <;> rfl
  | drw x y n =>
    obtain rfl := exec_next_unique h (exec_drw_of_runFits x y n s hfit)
    exact (if_neg hbounds).symm
  | ldB =>
    obtain rfl := exec_next_unique h (exec_ldB_of_runFits hfit)
    exact (if_neg hbounds).symm
  | dump =>
    obtain rfl := exec_next_unique h (exec_dump_of_runFits hfit)
    exact (if_neg hbounds).symm
  | load =>
    obtain rfl := exec_next_unique h (exec_load_of_runFits hfit)
    exact (if_neg hbounds).symm
  | _ =>
    obtain rfl := complete_next.mp h
    rfl

/-- Settles O40: `exec_report` for the fetched instruction, and the report of a failed fetch. -/
theorem reportsExactlyTheListedConditions : Obligations.ReportsExactlyTheListedConditions := by
  refine ⟨fun _ _ _ => exec_report, fun s t h => ?_⟩
  by_cases hpc : s.pc.toNat ≤ 4094
  · rw [step_of_le hpc] at h
    exact (exec_report h).trans (if_neg (by omega)).symm
  · rw [step_of_gt (Nat.not_le.mp hpc)] at h
    obtain rfl := raise_next.mp h
    exact (if_pos (by omega)).symm

/-! ## The V registers an instruction changes (R11, R12) -/

theorem exec_keepsV {i : Instr} {s t : State} {r : VReg} (h : exec i s = .next t) (hr : r ∉ Claims.writesV i) :
    readV r t = readV r s := by
  by_cases hfit : Claims.RunFits (accessLength i) s
  case neg =>
    obtain rfl := exec_next_unique h (exec_of_not_runFits hfit)
    rfl
  cases i with
  | ldImm x | addImm x | ldVxDt x | ldReg x | orReg x | andReg x | xorReg x =>
    obtain rfl := complete_next.mp h
    exact (readV_writeV x r _ s).trans (if_neg (List.ne_of_not_mem_cons hr))
  | rnd x nn =>
    obtain rfl := complete_next.mp h
    exact ((readV_writeV x r _ _).trans (if_neg (List.ne_of_not_mem_cons hr))).trans (readV_drawRandom r s)
  | addReg x | subReg x | shr x | subn x | shl x =>
    obtain rfl := complete_next.mp h
    have hx : r ≠ x := List.ne_of_not_mem_cons hr
    have hvf : r ≠ vf := List.ne_of_not_mem_cons (List.not_mem_of_not_mem_cons hr)
    exact (readV_writeFlagged x r _ s).trans ((if_neg hx).trans (if_neg hvf))
  | ldVxK x =>
    obtain ⟨k, -, rfl⟩ | ⟨-, rfl⟩ := exec_ldVxK_cases h
    · exact (readV_writeV x r _ s).trans (if_neg (List.ne_of_not_mem_cons hr))
    · rfl
  | drw x y n =>
    obtain rfl := exec_next_unique h (exec_drw_of_runFits x y n s hfit)
    exact (readV_writeV vf r _ _).trans (if_neg (List.ne_of_not_mem_cons hr))
  | load x =>
    obtain ⟨u, hload, -, -, hhigh, -⟩ := exec_load_spec (runFits_succ.mp hfit)
    obtain rfl := exec_next_unique h hload
    exact hhigh r (by simpa [Claims.writesV] using hr)
  | ldB =>
    obtain rfl := exec_next_unique h (exec_ldB_of_runFits hfit)
    rfl
  | dump =>
    obtain rfl := exec_next_unique h (exec_dump_of_runFits hfit)
    rfl
  | call => obtain ⟨-, rfl⟩ | ⟨-, rfl⟩ := exec_call_cases h <;> rfl
  | ret => obtain ⟨k, -, rfl⟩ | ⟨-, rfl⟩ := exec_ret_cases h <;> rfl
  | _ =>
    obtain rfl := complete_next.mp h
    rfl

/-- Settles O41: `exec_keepsV`. -/
theorem registersChangeOnlyAsListed : Obligations.RegistersChangeOnlyAsListed := fun _ _ _ _ => exec_keepsV

/-! ## The framebuffer, memory, I and the keypad (R13, R20, R21, R30) -/

/-- What an instruction can do to the framebuffer, memory, I and the keypad, `t` being what it leaves. -/
structure WritesAsListed (i : Instr) (s t : State) : Prop where
  /-- The framebuffer is written by CLS and DRW only. -/
  fb : t.fb = s.fb ∨ i = .cls ∨ ∃ x y n, i = .drw x y n
  /-- Memory is written by FX33 and FX55 only, and by a run of bytes. -/
  mem : t.mem = s.mem ∨ (∃ x, i = .ldB x ∨ i = .dump x) ∧ ∃ a xs, t.mem = s.mem.setBytes a xs
  /-- I is written by ANNN, FX1E and FX29 only, with at most 12 bits. -/
  i : t.i = s.i ∨ (t.i.toNat ≤ 0xFFF ∧ ((∃ nnn, i = .ldI nnn) ∨ ∃ x, i = .addI x ∨ i = .ldF x))
  /-- The keypad is not written. -/
  key : t.key = s.key

theorem exec_writesAsListed {i : Instr} {s t : State} (h : exec i s = .next t) : WritesAsListed i s t := by
  by_cases hfit : Claims.RunFits (accessLength i) s
  case neg =>
    obtain rfl := exec_next_unique h (exec_of_not_runFits hfit)
    exact ⟨.inl rfl, .inl rfl, .inl rfl, rfl⟩
  cases i with
  | cls =>
    obtain rfl := complete_next.mp h
    exact ⟨.inr (.inl rfl), .inl rfl, .inl rfl, rfl⟩
  | drw x y n =>
    obtain rfl := exec_next_unique h (exec_drw_of_runFits x y n s hfit)
    exact ⟨.inr (.inr ⟨x, y, n, rfl⟩), .inl rfl, .inl rfl, rfl⟩
  | ldB x =>
    obtain rfl := exec_next_unique h (exec_ldB_of_runFits hfit)
    exact ⟨.inl rfl, .inr ⟨⟨x, .inl rfl⟩, _, _, rfl⟩, .inl rfl, rfl⟩
  | dump x =>
    obtain rfl := exec_next_unique h (exec_dump_of_runFits hfit)
    exact ⟨.inl rfl, .inr ⟨⟨x, .inr rfl⟩, _, _, rfl⟩, .inl rfl, rfl⟩
  | ldI nnn =>
    obtain rfl := complete_next.mp h
    have hi : (zextAddr nnn).toNat ≤ 0xFFF := by
      rw [zextAddr_toNat]
      omega
    exact ⟨.inl rfl, .inl rfl, .inr ⟨hi, .inl ⟨nnn, rfl⟩⟩, rfl⟩
  | addI x =>
    obtain rfl := complete_next.mp h
    have hi : (BitVec.ofNat 16 ((s.i.toNat + (readV x s).toNat) % Config.memSize)).toNat ≤ 0xFFF := by
      rw [addI_result_toNat]
      omega
    exact ⟨.inl rfl, .inl rfl, .inr ⟨hi, .inr ⟨x, .inl rfl⟩⟩, rfl⟩
  | ldF x =>
    obtain rfl := complete_next.mp h
    have hi : (BitVec.ofNat 16 (fontBase + glyphBytes * (lowNibble x s).val)).toNat ≤ 0xFFF := by
      rw [ldF_result_toNat]
      omega
    exact ⟨.inl rfl, .inl rfl, .inr ⟨hi, .inr ⟨x, .inr rfl⟩⟩, rfl⟩
  | load =>
    obtain rfl := exec_next_unique h (exec_load_of_runFits hfit)
    exact ⟨.inl rfl, .inl rfl, .inl rfl, rfl⟩
  | call => obtain ⟨-, rfl⟩ | ⟨-, rfl⟩ := exec_call_cases h <;> exact ⟨.inl rfl, .inl rfl, .inl rfl, rfl⟩
  | ret => obtain ⟨k, -, rfl⟩ | ⟨-, rfl⟩ := exec_ret_cases h <;> exact ⟨.inl rfl, .inl rfl, .inl rfl, rfl⟩
  | ldVxK => obtain ⟨k, -, rfl⟩ | ⟨-, rfl⟩ := exec_ldVxK_cases h <;> exact ⟨.inl rfl, .inl rfl, .inl rfl, rfl⟩
  | rnd x nn =>
    obtain rfl := complete_next.mp h
    obtain ⟨b, rest, n, hdraw, -⟩ := drawRandom_eq s
    rw [hdraw]
    exact ⟨.inl rfl, .inl rfl, .inl rfl, rfl⟩
  | _ =>
    obtain rfl := complete_next.mp h
    exact ⟨.inl rfl, .inl rfl, .inl rfl, rfl⟩

/-- Settles O42: the framebuffer and memory of `exec_writesAsListed`. -/
theorem framebufferAndMemoryWriters : Obligations.FramebufferAndMemoryWriters :=
  fun _ _ _ h => ⟨(exec_writesAsListed h).fb, (exec_writesAsListed h).mem.imp_right And.left⟩

/-- Settles O43: the index register of `exec_writesAsListed`. -/
theorem indexRegisterWriters : Obligations.IndexRegisterWriters := fun _ _ _ h => (exec_writesAsListed h).i

end Sys2Proof.Machine
end

section
/-! PROOFS. Who reads what (spec/10_state.md R18, R20, R21, R23; 40_cycle_dispatch.md R78): an instruction that does not see a part of
the state commutes with every change of that part. -/

namespace Sys2Proof.Machine

open Sys2Proof.Laws

/-! ## A change of the framebuffer, ST, the keypad and the random input -/

/-- A function on each of the four parts. -/
structure Change where
  fb : Framebuffer → Framebuffer := id
  st : Byte → Byte := id
  key : Vector Bool 16 → Vector Bool 16 := id
  rndInput : List Byte → List Byte := id

/-- The state with the four parts changed. -/
def Change.apply (c : Change) (s : State) : State :=
  { s with fb := c.fb s.fb, st := c.st s.st, key := c.key s.key, rndInput := c.rndInput s.rndInput }

/-- The instruction neither reads nor writes a part that is changed. -/
structure Change.Unseen (c : Change) (i : Instr) : Prop where
  fb : c.fb = id ∨ (i ≠ .cls ∧ ∀ x y n, i ≠ .drw x y n)
  st : c.st = id ∨ ∀ x, i ≠ .ldStVx x
  key : c.key = id ∨ ∀ x, i ≠ .skp x ∧ i ≠ .sknp x ∧ i ≠ .ldVxK x
  rndInput : c.rndInput = id ∨ ∀ x nn, i ≠ .rnd x nn

section
variable (c : Change) (s : State)

theorem drawRandom_change (hc : c.rndInput = id) : drawRandom (c.apply s) = ((drawRandom s).1, c.apply (drawRandom s).2) := by
  have hinput : (c.apply s).rndInput = s.rndInput := congrFun hc s.rndInput
  obtain ⟨F, T, K, R⟩ := c
  obtain rfl : R = id := hc
  unfold drawRandom
  rw [hinput]
  cases s.rndInput <;> rfl

/-- The instructions that branch on an operation's answer branch alike; those of the last case are straight-line updates of parts that
are not changed. -/
theorem exec_change {i : Instr} (h : c.Unseen i) : exec i (c.apply s) = mapNext c.apply (exec i s) := by
  by_cases hfit : Claims.RunFits (accessLength i) s
  case neg =>
    rw [exec_of_not_runFits hfit, exec_of_not_runFits (s := c.apply s) hfit]
    rfl
  obtain ⟨hfb, hst, hkey, hrnd⟩ := h
  obtain ⟨F, T, K, R⟩ := c
  cases i with
  | cls =>
    obtain rfl := hfb.resolve_right fun hne => hne.1 rfl
    rfl
  | drw x y n =>
    obtain rfl := hfb.resolve_right fun hne => hne.2 x y n rfl
    rw [exec_drw_of_runFits x y n s hfit, exec_drw_of_runFits x y n (Change.apply ⟨id, T, K, R⟩ s) hfit]
    rfl
  | ldStVx x =>
    obtain rfl := hst.resolve_right fun hne => hne x rfl
    rfl
  | skp x =>
    obtain rfl := hkey.resolve_right fun hne => (hne x).1 rfl
    rfl
  | sknp x =>
    obtain rfl := hkey.resolve_right fun hne => (hne x).2.1 rfl
    rfl
  | ldVxK x =>
    obtain rfl := hkey.resolve_right fun hne => (hne x).2.2 rfl
    cases hlow : lowestKey s with
    | none =>
      rw [exec_ldVxK_of_none hlow, exec_ldVxK_of_none (s := Change.apply ⟨F, T, id, R⟩ s) hlow]
      rfl
    | some k =>
      rw [exec_ldVxK_of_some hlow, exec_ldVxK_of_some (s := Change.apply ⟨F, T, id, R⟩ s) hlow]
      rfl
  | rnd x nn =>
    have hdraw := drawRandom_change _ s (hrnd.resolve_right fun hne => hne x nn rfl)
    show execRnd x nn _ = mapNext _ (execRnd x nn s)
    rw [execRnd, hdraw]
    rfl
  | call nnn =>
    rcases Nat.lt_or_ge s.sp.val 16 with hsp | hsp
    · rw [exec_call_of_lt hsp, exec_call_of_lt (s := Change.apply ⟨F, T, K, R⟩ s) hsp]
      rfl
    · have hfull : s.sp.val = 16 := by omega
      rw [exec_call_of_full hfull, exec_call_of_full (s := Change.apply ⟨F, T, K, R⟩ s) hfull]
      rfl
  | ret =>
    rcases Nat.eq_zero_or_pos s.sp.val with hsp | hsp
    · rw [exec_ret_of_empty hsp, exec_ret_of_empty (s := Change.apply ⟨F, T, K, R⟩ s) hsp]
      rfl
    · have hk : s.sp.val = (⟨s.sp.val - 1, by omega⟩ : Fin 16).val + 1 := (Nat.sub_add_cancel hsp).symm
      rw [exec_ret_of_pos hk, exec_ret_of_pos (s := Change.apply ⟨F, T, K, R⟩ s) hk]
      rfl
  | ldB x =>
    rw [exec_ldB_of_runFits hfit, exec_ldB_of_runFits (s := Change.apply ⟨F, T, K, R⟩ s) hfit]
    rfl
  | dump x =>
    rw [exec_dump_of_runFits hfit, exec_dump_of_runFits (s := Change.apply ⟨F, T, K, R⟩ s) hfit]
    rfl
  | load x =>
    rw [exec_load_of_runFits hfit, exec_load_of_runFits (s := Change.apply ⟨F, T, K, R⟩ s) hfit]
    rfl
  | _ => rfl

end

/-- What an instruction does with one content of these parts it does with every other. -/
theorem exec_next_change {c : Change} {i : Instr} {s t : State} (hc : c.Unseen i) (h : exec i s = .next t) :
    exec i (c.apply s) = .next (c.apply t) := by
  rw [exec_change c s hc, h, mapNext_next]

/-! ## The keypad (R21, R78) -/

theorem step_keeps_key {s t : State} (h : step s = .next t) : t.key = s.key := by
  by_cases hpc : s.pc.toNat ≤ 4094
  · rw [step_of_le hpc] at h
    exact (exec_writesAsListed h).key
  · rw [step_of_gt (Nat.not_le.mp hpc)] at h
    obtain rfl := raise_next.mp h
    rfl

/-- Settles O46: `step_keeps_key`, and `exec_next_change` with other keys. -/
theorem keypadOnlyReadByKeyInstructions : Obligations.KeypadOnlyReadByKeyInstructions :=
  ⟨fun _ _ => step_keeps_key, fun _ _ _ keys h hi =>
    exec_next_change (c := { key := fun _ => keys }) ⟨.inl rfl, .inl rfl, .inr hi, .inl rfl⟩ h⟩

/-! ## ST and the framebuffer (R18, R31) -/

theorem exec_other_st {i : Instr} {s t : State} (h : exec i s = .next t) (b : Byte) :
    ∃ c, exec i { s with st := b } = .next { t with st := c } ∧ ((∀ x, i ≠ .ldStVx x) → c = b) := by
  by_cases hi : ∃ x, i = .ldStVx x
  · obtain ⟨x, rfl⟩ := hi
    obtain rfl := complete_next.mp h
    exact ⟨readV x s, rfl, fun hne => absurd rfl (hne x)⟩
  · exact ⟨b, exec_next_change (c := { st := fun _ => b }) ⟨.inl rfl, .inr (not_exists.mp hi), .inl rfl, .inl rfl⟩ h,
      fun _ => rfl⟩

theorem exec_other_fb {i : Instr} {s t : State} (h : exec i s = .next t) (fb : Framebuffer) (hdrw : ∀ x y n, i ≠ .drw x y n) :
    ∃ fb', exec i { s with fb := fb } = .next { t with fb := fb' } ∧ (i ≠ .cls → fb' = fb) := by
  by_cases hi : i = .cls
  · subst hi
    obtain rfl := complete_next.mp h
    exact ⟨Framebuffer.clear, rfl, fun hne => absurd rfl hne⟩
  · exact ⟨fb, exec_next_change (c := { fb := fun _ => fb }) ⟨.inr ⟨hi, hdrw⟩, .inl rfl, .inl rfl, .inl rfl⟩ h, fun _ => rfl⟩

/-- Settles O47: `exec_other_st` and `exec_other_fb`. -/
theorem soundTimerAndFramebufferReaders : Obligations.SoundTimerAndFramebufferReaders :=
  fun _ _ _ h => ⟨exec_other_st h, exec_other_fb h⟩

/-! ## The random byte of a `Cycle` (R23, R70) -/

/-- A cycle is a step whose random input is the byte, and gives the input back. -/
theorem cycle_of_step {b : Byte} {s u : State} (h : step { s with rndInput := [b] } = .next u) :
    cycle b s = .next { u with rndInput := s.rndInput } := by
  simp only [cycle, h]

theorem cycle_exists_next (b : Byte) (s : State) : ∃ t, cycle b s = .next t ∧ t.rndInput = s.rndInput := by
  obtain ⟨u, hu⟩ := step_exists_next { s with rndInput := [b] }
  exact ⟨_, cycle_of_step hu, rfl⟩

theorem cycle_rnd {b : Byte} {s : State} {x : VReg} {nn : Byte} (hpc : s.pc.toNat ≤ 4094)
    (hfetch : Claims.fetched s = .rnd x nn) : ∃ t, cycle b s = .next t ∧ readV x t = b &&& nn := by
  obtain ⟨u, hexec, -, hready, -⟩ := rndMasksRandomByte.2 x nn { s with rndInput := [b] }
  have hstep : step { s with rndInput := [b] } = .next u :=
    (step_of_le (s := { s with rndInput := [b] }) hpc).trans ((congrArg (exec · _) hfetch).trans hexec)
  exact ⟨_, cycle_of_step hstep, (hready b [] rfl).1⟩

/-- Where no CXNN is fetched, a cycle is the step, whatever its byte. -/
theorem cycle_eq_of_step {b : Byte} {s t : State} (hrnd : 4095 ≤ s.pc.toNat ∨ ∀ x nn, Claims.fetched s ≠ .rnd x nn)
    (h : step s = .next t) : cycle b s = .next { t with rndInput := s.rndInput } := by
  refine cycle_of_step (u := { t with rndInput := [b] }) ?_
  by_cases hpc : s.pc.toNat ≤ 4094
  · rw [step_of_le hpc] at h
    have hne := hrnd.resolve_left (by omega)
    exact (step_of_le (s := { s with rndInput := [b] }) hpc).trans
      (exec_next_change (c := { rndInput := fun _ => [b] }) ⟨.inl rfl, .inl rfl, .inl rfl, .inr hne⟩ h)
  · rw [step_of_gt (Nat.not_le.mp hpc)] at h
    obtain rfl := raise_next.mp h
    exact step_of_gt (Nat.not_le.mp hpc)

/-- Settles O60: `cycle_exists_next`, `cycle_rnd`, and two cycles that are the same step by `cycle_eq_of_step`. -/
theorem cycleUsesRandomByteOnlyForRnd : Obligations.CycleUsesRandomByteOnlyForRnd := by
  refine ⟨cycle_exists_next, fun b s x nn => cycle_rnd, fun b c s hrnd => ?_⟩
  obtain ⟨t, h⟩ := step_exists_next s
  rw [cycle_eq_of_step hrnd h, cycle_eq_of_step hrnd h]

end Sys2Proof.Machine
end

section
/-! PROOFS. Memory as data and as the stream of instructions (spec/10_state.md R19; 20_memory.md R45), and runs of steps: the end of a
run (70_reset_and_hazards.md R168) and the sticky reading of a report (60_exceptions.md R147). -/

namespace Sys2Proof.Machine

open Sys2Proof.Laws

/-! ## Canonical memories (R19) -/

/-- A listed cell is what its address reads as. -/
theorem lookupCell_of_mem {cells : List Host.Cell} (h : cells.Pairwise (fun c d => c.1 < d.1)) {c : Host.Cell} (hc : c ∈ cells) :
    lookupCell c.1 cells = c.2 := by
  induction cells with
  | nil => cases hc
  | cons d rest ih =>
    obtain ⟨hlt, hrest⟩ := List.pairwise_cons.mp h
    rcases List.mem_cons.mp hc with rfl | hc
    · exact if_pos rfl
    · exact (if_neg (Nat.ne_of_lt (hlt c hc))).trans (ih hrest hc)

/-- An address that does not read as after reset is listed. -/
theorem mem_of_lookupCell_ne {a : Nat} {cells : List Host.Cell} (h : lookupCell a cells ≠ resetByte a) :
    (a, lookupCell a cells) ∈ cells := by
  induction cells with
  | nil => exact absurd rfl h
  | cons d rest ih =>
    obtain ⟨b, x⟩ := d
    by_cases hb : b = a
    · subst hb
      simp [lookupCell]
    · simp only [lookupCell, hb, if_false] at h ⊢
      exact List.mem_cons_of_mem _ (ih h)

/-- The cells of a canonical memory are the addresses that do not read as after reset, with what they read as. -/
theorem Memory.mem_cells_iff {m : Memory} (h : m.wf) {c : Host.Cell} :
    c ∈ m.cells ↔ m.byteAt c.1 = c.2 ∧ c.2 ≠ resetByte c.1 := by
  constructor
  · exact fun hc => ⟨lookupCell_of_mem h.1 hc, (h.2 c hc).2⟩
  · rintro ⟨hread, hne⟩
    have hlisted : (c.1, m.byteAt c.1) ∈ m.cells := mem_of_lookupCell_ne (by rwa [← hread] at hne)
    rwa [hread] at hlisted

/-- Settles O49: two sorted lists with the same cells are equal, and by `Memory.mem_cells_iff` the bytes say which cells there are. -/
theorem canonicalMemoriesReadingAlikeAreEqual : Obligations.CanonicalMemoriesReadingAlikeAreEqual := by
  intro m m' h h' halike
  have hread : m.byteAt = m'.byteAt := by
    funext a
    rcases Nat.lt_or_ge a 4096 with ha | ha
    · exact halike a (Nat.le_of_lt_succ ha)
    · rw [Memory.byteAt_of_ge h ha, Memory.byteAt_of_ge h' ha]
  have hcells : m.cells = m'.cells := by
    have : Std.Antisymm fun c d : Host.Cell => c.1 < d.1 := ⟨fun _ _ hcd hdc => absurd hdc (Nat.lt_asymm hcd)⟩
    have : Std.Irrefl fun c d : Host.Cell => c.1 < d.1 := ⟨fun c => Nat.lt_irrefl c.1⟩
    exact h.1.eq_of_mem_iff h'.1 fun c => by rw [Memory.mem_cells_iff h, Memory.mem_cells_iff h', hread]
  cases m
  cases m'
  exact congrArg Memory.mk hcells

/-! ## A store into the next word (R45, R71) -/

/-- Settles O50: the dump of `dumpStoresRegisters` puts V0 and V1 where the next step fetches. -/
theorem nextFetchSeesStore : Obligations.NextFetchSeesStore := by
  intro x s t hm hx hpc hi hfit h
  obtain ⟨u, hdump, hadv, hbytes, -, -⟩ := dumpStoresRegisters.2 x s hm hfit
  obtain rfl := exec_next_unique h hdump
  have hat : t.pc = s.i := hadv.1.trans hi.symm
  have hpc' : t.pc.toNat ≤ 4094 := by
    rw [hadv.1]
    bv_omega
  have hhigh : t.mem.byteAt s.i.toNat = readV 0 s := hbytes 0 (Fin.zero_le x)
  have hlow : t.mem.byteAt (s.i.toNat + 1) = readV 1 s := hbytes 1 hx
  rw [step_of_le hpc', Claims.fetched, hat, hhigh, hlow]

/-! ## The end of a run (R168) -/

/-- A step on a jump to its own address reports nothing and leaves the state. -/
theorem step_of_ended {s : State} (h : s.ended = true) : step s = .next { s with report := none } := by
  unfold State.ended at h
  unfold step
  cases hfetch : fetch s with
  | none =>
    rw [hfetch] at h
    cases h
  | some w =>
    rw [hfetch] at h
    obtain ⟨hdecode, hpc⟩ : decode w = .jp (s.pc.truncate 12) ∧ s.pc.toNat ≤ 0xFFF := by simpa using h
    have htarget : zextAddr (s.pc.truncate 12) = s.pc := by
      apply BitVec.eq_of_toNat_eq
      rw [zextAddr_toNat, BitVec.toNat_setWidth]
      omega
    show exec (decode w) s = _
    rw [hdecode, exec_jp, htarget]

/-- Settles O51: the state `step_of_ended` leaves has ended too. -/
theorem jumpToSelfLeavesStateUnchanged : Obligations.JumpToSelfLeavesStateUnchanged := by
  intro s h k
  induction k generalizing s with
  | zero => exact core_run_succ (step_of_ended h) 0
  | succ k ih => exact (core_run_succ (step_of_ended h) (k + 1)).trans (ih { s with report := none } h)

/-! ## The sticky reading (R147) -/

/-- The step with number `j` of the machine's run from `s`, counted from 0, reports `r`. -/
def ReportsAt (j : Nat) (s : State) (r : Option Fault) : Prop :=
  ∃ u : State, Sys2Proof.core.run (j + 1) s = .next u ∧ u.report = r

section
variable {s t : State} (h : step s = .next t)
include h

theorem reportsAt_zero {r : Option Fault} : ReportsAt 0 s r ↔ t.report = r := by
  have hrun : Sys2Proof.core.run 1 s = .next t := core_run_succ h 0
  constructor
  · rintro ⟨u, hu, hr⟩
    obtain rfl : t = u := Host.Outcome.next.inj (hrun.symm.trans hu)
    exact hr
  · exact fun hr => ⟨t, hrun, hr⟩

theorem reportsAt_succ {j : Nat} {r : Option Fault} : ReportsAt (j + 1) s r ↔ ReportsAt j t r := by
  unfold ReportsAt
  rw [core_run_succ h]

/-- The first steps are quiet when the first one is and those after it are. -/
theorem quiet_before_succ {k : Nat} :
    (∀ j < k + 1, ReportsAt j s none) ↔ t.report = none ∧ ∀ j < k, ReportsAt j t none := by
  rw [Nat.forall_lt_succ_left, reportsAt_zero h]
  simp only [reportsAt_succ h]

theorem strictStep_of_quiet (hr : t.report = none) : strictStep s = .next t := strictStep_next.mpr ⟨h, hr⟩

theorem strictStep_of_report {f : Fault} (hr : t.report = some f) : strictStep s = .fault f :=
  strictStep_fault.mpr (.inl ⟨t, h, hr⟩)

/-- A strict run goes on after a quiet step. -/
theorem strictRun_succ_of_quiet (hr : t.report = none) (k : Nat) : strictRun (k + 1) s = strictRun k t := by
  rw [strictRun, strictStep_of_quiet h hr]

/-- A strict run stops at a step that reports. -/
theorem strictRun_succ_of_report {f : Fault} (hr : t.report = some f) (k : Nat) : strictRun (k + 1) s = .fault f := by
  rw [strictRun, strictStep_of_report h hr]

end

theorem strictRun_eq_next_iff (k : Nat) (s t : State) :
    strictRun k s = .next t ↔ Sys2Proof.core.run k s = .next t ∧ ∀ j < k, ReportsAt j s none := by
  induction k generalizing s with
  | zero => exact (and_iff_left fun j hj => absurd hj (Nat.not_lt_zero j)).symm
  | succ k ih =>
    obtain ⟨u, hu⟩ := step_exists_next s
    rw [core_run_succ hu, quiet_before_succ hu]
    cases hr : u.report with
    | none => simp [strictRun_succ_of_quiet hu hr, ih]
    | some f => simp [strictRun_succ_of_report hu hr]

theorem strictRun_eq_fault_iff (k : Nat) (s : State) (f : Fault) :
    strictRun k s = .fault f ↔ ∃ j < k, (∀ m < j, ReportsAt m s none) ∧ ReportsAt j s (some f) := by
  induction k generalizing s with
  | zero => simp [strictRun]
  | succ k ih =>
    obtain ⟨u, hu⟩ := step_exists_next s
    rw [Nat.exists_lt_succ_left]
    simp only [quiet_before_succ hu, reportsAt_zero hu, reportsAt_succ hu]
    cases hr : u.report with
    | none => simp [strictRun_succ_of_quiet hu hr, ih]
    | some g => simp [strictRun_succ_of_report hu hr]

theorem strictRun_ne_refused (k : Nat) (s : State) (r : Refusal) : strictRun k s ≠ .refused r := by
  induction k generalizing s with
  | zero => exact nofun
  | succ k ih =>
    obtain ⟨u, hu⟩ := step_exists_next s
    cases hr : u.report with
    | none =>
      rw [strictRun_succ_of_quiet hu hr]
      exact ih u
    | some f =>
      rw [strictRun_succ_of_report hu hr]
      exact nofun

/-- Settles O52: the strict step by its two cases, the strict run by induction on the number of steps. -/
theorem strictRunStopsAtFirstReport : Obligations.StrictRunStopsAtFirstReport :=
  ⟨fun _ _ h => ⟨strictStep_of_quiet h, fun _ => strictStep_of_report h⟩, strictRun_eq_next_iff, strictRun_eq_fault_iff,
    strictRun_ne_refused⟩

end Sys2Proof.Machine
end

section
/-! PROOFS. Reset (spec/10_state.md R25), the invariant of reachable states (R26) and the host's operations (60_exceptions.md R159). -/

namespace Sys2Proof.Machine

open Sys2Proof.Laws

/-! ## The reset state (R25, R28) -/

/-- Outside the font, memory is 0 after reset. -/
theorem resetByte_outside_font {a : Nat} (h : ¬(0x050 ≤ a ∧ a ≤ 0x09F)) : resetByte a = 0 := by
  unfold resetByte
  split
  next hfont =>
    have hlen : fontTable.length ≤ a - fontBase := by
      simp only [fontBase, fontTable, List.length_append, List.length_cons, List.length_nil] at *
      omega
    exact List.getD_eq_default _ _ hlen
  next => rfl

/-- Settles O53: the fields of the reset state, and its memory by `resetByte_outside_font` and the font table. -/
theorem resetStateAsListed : Obligations.ResetStateAsListed :=
  ⟨rfl, rfl, fun _ => Vector.getElem_replicate _, rfl, rfl, fun _ => Vector.getElem_replicate _, rfl, pixel_clear,
    fun _ => Vector.getElem_replicate _, fun _ => resetByte_outside_font, by decide⟩

/-! ## The invariant (R26) -/

/-- Settles O54: memory is canonical, and every other bound is one on a 0 or on 0x200. -/
theorem resetMeetsInvariant : Obligations.ResetMeetsInvariant where
  mem := reset_mem_wf
  i := by decide
  pc := by decide
  stk := by decide

/-- The invariant sees four fields only. -/
theorem State.Inv.congr {s t : State} (h : s.Inv) (hmem : t.mem = s.mem) (hi : t.i = s.i) (hpc : t.pc = s.pc)
    (hstk : t.stk = s.stk) : t.Inv where
  mem := hmem ▸ h.mem
  i := hi ▸ h.i
  pc := hpc ▸ h.pc
  stk := hstk ▸ h.stk

section
variable {s : State} (hinv : s.Inv) (hpc : s.pc.toNat ≤ 4094)
include hinv hpc

/-- R14: the largest PC is that of BNNN. -/
theorem nextPc_le (i : Instr) : Claims.nextPc i s ≤ 0x10FE := by
  have hplain : (s.pc + 2).toNat ≤ 4096 := by bv_omega
  have hskip : (s.pc + 4).toNat ≤ 4098 := by bv_omega
  cases i with
  | jp nnn =>
    show nnn.toNat ≤ _
    omega
  | jpV0 nnn =>
    show (readV 0 s).toNat + nnn.toNat ≤ _
    omega
  | call nnn =>
    simp only [Claims.nextPc]
    split <;> omega
  | ret =>
    simp only [Claims.nextPc]
    split
    next h => exact Nat.le_trans (hinv.stk ⟨s.sp.val - 1, by omega⟩) (by decide)
    next => decide
  | seImm | sneImm | seReg | sneReg | skp | sknp | ldVxK | drw | ldB | dump | load =>
    simp only [Claims.nextPc]
    split <;> omega
  | _ => exact Nat.le_trans hplain (by decide)

theorem exec_keeps_inv {i : Instr} {t : State} (h : exec i s = .next t) : t.Inv where
  mem := by
    rcases (exec_writesAsListed h).mem with hkeep | ⟨-, a, xs, hrun⟩
    · exact hkeep ▸ hinv.mem
    · exact hrun ▸ Memory.setBytes_wf hinv.mem a xs
  i := by
    rcases (exec_writesAsListed h).i with hkeep | ⟨hle, -⟩
    · exact hkeep ▸ hinv.i
    · exact hle
  pc := exec_pc h ▸ nextPc_le hinv hpc i
  stk := by
    rcases exec_stack_cases h with ⟨-, hkeep⟩ | ⟨-, -, -, hpush⟩ | ⟨-, -, -, hkeep⟩
    · exact hkeep ▸ hinv.stk
    · intro k
      rw [hpush k]
      split
      · bv_omega
      · exact hinv.stk k
    · exact hkeep ▸ hinv.stk

end

theorem step_keeps_inv {s t : State} (hinv : s.Inv) (h : step s = .next t) : t.Inv := by
  by_cases hpc : s.pc.toNat ≤ 4094
  · rw [step_of_le hpc] at h
    exact exec_keeps_inv hinv hpc h
  · rw [step_of_gt (Nat.not_le.mp hpc)] at h
    obtain rfl := raise_next.mp h
    exact hinv.congr rfl rfl rfl rfl

/-- Settles O55: `step_keeps_inv`. -/
theorem stepKeepsInvariant : Obligations.StepKeepsInvariant := fun _ _ => step_keeps_inv

/-! ## The host's operations (R159) -/

theorem cycle_eq_next {b : Byte} {s t : State} (h : cycle b s = .next t) :
    ∃ u, step { s with rndInput := [b] } = .next u ∧ t = { u with rndInput := s.rndInput } := by
  obtain ⟨u, hu⟩ := step_exists_next { s with rndInput := [b] }
  exact ⟨u, hu, Host.Outcome.next.inj (h.symm.trans (cycle_of_step hu))⟩

/-- R70: the host's cycle ends the offer to load. -/
theorem perform_cycle_of_next {b : Byte} {h : Session} {t : State} (hcycle : cycle b h.core = .next t) :
    perform (.cycle b) h = .next ⟨t, false⟩ := by
  simp only [perform, hcycle]

theorem perform_keeps_inv {op : HostOp} {h h' : Session} (hinv : h.core.Inv) (hop : perform op h = .next h') : h'.core.Inv := by
  cases op with
  | reset =>
    obtain rfl := Host.Outcome.next.inj hop
    exact resetMeetsInvariant.congr rfl rfl rfl rfl
  | load bytes =>
    obtain ⟨-, s, hload, rfl⟩ := perform_load_next.mp hop
    obtain ⟨-, rfl⟩ := loadProgram_eq_some.mp hload
    exact ⟨Memory.setBytes_wf hinv.mem _ bytes, hinv.i, hinv.pc, hinv.stk⟩
  | setKeys k16 =>
    obtain rfl := Host.Outcome.next.inj hop
    exact hinv.congr (setKeys_mem k16 _) (setKeys_i k16 _) (setKeys_pc k16 _) (setKeys_stk k16 _)
  | cycle rnd =>
    obtain ⟨t, ht, -⟩ := cycle_exists_next rnd h.core
    obtain rfl := Host.Outcome.next.inj (hop.symm.trans (perform_cycle_of_next ht))
    obtain ⟨u, hu, rfl⟩ := cycle_eq_next ht
    have hinput : ({ h.core with rndInput := [rnd] } : State).Inv := hinv.congr rfl rfl rfl rfl
    exact (step_keeps_inv hinput hu).congr rfl rfl rfl rfl
  | timerTick =>
    obtain rfl := Host.Outcome.next.inj hop
    exact hinv.congr rfl rfl rfl rfl

/-- Settles O56: the invariant holds at reset and every operation of the host keeps it. -/
theorem reachableSessionsMeetInvariant : Obligations.ReachableSessionsMeetInvariant := by
  intro h hreach
  induction hreach with
  | start => exact resetMeetsInvariant
  | move op _ hop hinv => exact perform_keeps_inv hinv hop

theorem tickDown_toNat (t : Byte) : (tickDown t).toNat = t.toNat - 1 := by
  rw [tickDown, BitVec.toNat_ofNat]
  omega

/-- Settles O57: `tickDown_toNat` for both timers. -/
theorem timerTickDecrementsBoth : Obligations.TimerTickDecrementsBoth :=
  fun s => ⟨tickDown_toNat s.dt, tickDown_toNat s.st, rfl⟩

/-- R48: what a load that is offered and fits does. -/
theorem perform_load_spec {bytes : List Byte} {h : Session} (hm : h.core.mem.wf) (hoffer : h.loadable = true)
    (hfit : bytes.length ≤ 3584) : ∃ h', perform (.load bytes) h = .next h' ∧ h'.loadable = false ∧
      (∀ k, k < bytes.length → h'.core.mem.byteAt (0x200 + k) = bytes.getD k 0) ∧
      (∀ a, ¬(0x200 ≤ a ∧ a < 0x200 + bytes.length) → h'.core.mem.byteAt a = h.core.mem.byteAt a) ∧
      { h'.core with mem := h.core.mem } = h.core := by
  have hend : 0x200 + bytes.length ≤ 4096 := by omega
  exact ⟨_, perform_load_next.mpr ⟨hoffer, _, loadProgram_eq_some.mpr ⟨hfit, rfl⟩, rfl⟩, rfl,
    fun _ hk => Memory.byteAt_setBytes_inside hm hend hk, fun _ ha => Memory.byteAt_setBytes_outside hm hend ha, rfl⟩

/-- R48, D25: a program that does not fit is refused. -/
theorem perform_load_of_gt {bytes : List Byte} {h : Session} (hoffer : h.loadable = true) (hlong : 3584 < bytes.length) :
    perform (.load bytes) h = .refused (.loadError bytes.length) := by
  have hnone : loadProgram bytes h.core = none := if_neg (Nat.not_le.mpr hlong)
  simp only [perform, hoffer, hnone, if_true]

/-- Settles O58: the load by its three cases, and what each other operation makes of the offer. -/
theorem loadPlacesProgram : Obligations.LoadPlacesProgram := by
  intro bytes h
  refine ⟨perform_load_spec, perform_load_of_gt, fun hoffer => ?_, ⟨_, rfl, rfl⟩, fun rnd => ?_, fun k16 => ⟨_, rfl, rfl⟩,
    ⟨_, rfl, rfl⟩⟩
  · simp [perform, hoffer]
  · obtain ⟨t, ht, -⟩ := cycle_exists_next rnd h.core
    exact ⟨_, perform_cycle_of_next ht, rfl⟩

/-- R21: key `k` is bit `k` of the word the host writes. -/
theorem keyDown_setKeys (k16 : BitVec 16) (s : State) (k : Fin 16) : keyDown k (setKeys k16 s) = k16.getLsbD k.val := by
  simp [keyDown]

/-- Settles O59: the one field `setKeys` writes, and the reset state of `hostReset`. -/
theorem keysAndResetAreTheHosts : Obligations.KeysAndResetAreTheHosts :=
  ⟨fun k16 s => ⟨keyDown_setKeys k16 s, by simp only [setKeys]⟩, fun _ => ⟨_, rfl, rfl, rfl⟩⟩

end Sys2Proof.Machine
end
